-- ==== Sys2Proof/Word.lean ====
section
/-! DEFINITION. The machine's words: bytes, 16-bit words, 4-bit indices and 12-bit addresses (00_scope R5, R7). -/

namespace Sys2Proof

/-- A memory byte, a general register, a timer (00_scope R5, `REG_W`, `TIMER_W`). -/
abbrev Byte := BitVec 8

/-- An instruction word, I, PC, a call-stack entry (00_scope R5, `I_W`, `PC_W`, `STACK_W`). -/
abbrev Word := BitVec 16

/-- A register index, a key number, a sprite height (30_encoding R91: x, y, n). -/
abbrev Nibble := BitVec 4

/-- The 12-bit address field nnn (30_encoding R91). -/
abbrev Addr := BitVec 12

end Sys2Proof
end

