-- ==== Sys2Proof/Syntax.lean ====
section
/-! DEFINITION. The 35 operations of 30_encoding R96, one constructor per row of spec/opcode_table.json,
with the operands R92 delivers, in that order. -/

namespace Sys2Proof

/-- A decoded instruction: "a closed, exhaustive tagged-union of operation kinds" (30_encoding R100). -/
inductive Instr where
  /-- CLS (R230). -/
  | cls
  /-- RET (R151). -/
  | ret
  /-- SYS nnn, the family-0x0 no-op (R150). -/
  | sysNnn (nnn : Addr)
  /-- JP nnn (R152). -/
  | jpNnn (nnn : Addr)
  /-- CALL nnn (R153). -/
  | callNnn (nnn : Addr)
  /-- SE Vx,kk (R154). -/
  | seVxKk (x : Nibble) (kk : Byte)
  /-- SNE Vx,kk (R155). -/
  | sneVxKk (x : Nibble) (kk : Byte)
  /-- SE Vx,Vy (R156). -/
  | seVxVy (x y : Nibble)
  /-- LD Vx,kk (R180). -/
  | ldVxKk (x : Nibble) (kk : Byte)
  /-- ADD Vx,kk (R181). -/
  | addVxKk (x : Nibble) (kk : Byte)
  /-- LD Vx,Vy (R182). -/
  | ldVxVy (x y : Nibble)
  /-- OR Vx,Vy (R183). -/
  | orVxVy (x y : Nibble)
  /-- AND Vx,Vy (R184). -/
  | andVxVy (x y : Nibble)
  /-- XOR Vx,Vy (R185). -/
  | xorVxVy (x y : Nibble)
  /-- ADD Vx,Vy (R186). -/
  | addVxVy (x y : Nibble)
  /-- SUB Vx,Vy (R187). -/
  | subVxVy (x y : Nibble)
  /-- SHR Vx,Vy (R188). -/
  | shrVxVy (x y : Nibble)
  /-- SUBN Vx,Vy (R189). -/
  | subnVxVy (x y : Nibble)
  /-- SHL Vx,Vy (R190). -/
  | shlVxVy (x y : Nibble)
  /-- SNE Vx,Vy (R157). -/
  | sneVxVy (x y : Nibble)
  /-- LD I,nnn (R210). -/
  | ldINnn (nnn : Addr)
  /-- JP V0,nnn (R158). -/
  | jpV0Nnn (nnn : Addr)
  /-- RND Vx,kk (R191). -/
  | rndVxKk (x : Nibble) (kk : Byte)
  /-- DRW Vx,Vy,n (R231). -/
  | drwVxVyN (x y n : Nibble)
  /-- SKP Vx (R250). -/
  | skpVx (x : Nibble)
  /-- SKNP Vx (R251). -/
  | sknpVx (x : Nibble)
  /-- LD Vx,DT (R252). -/
  | ldVxDt (x : Nibble)
  /-- LD Vx,K (R253). -/
  | ldVxK (x : Nibble)
  /-- LD DT,Vx (R254). -/
  | ldDtVx (x : Nibble)
  /-- LD ST,Vx (R255). -/
  | ldStVx (x : Nibble)
  /-- ADD I,Vx (R211). -/
  | addIVx (x : Nibble)
  /-- LD F,Vx (R212). -/
  | ldFVx (x : Nibble)
  /-- LD B,Vx (R213). -/
  | ldBVx (x : Nibble)
  /-- LD [I],Vx (R214). -/
  | ldMemIVx (x : Nibble)
  /-- LD Vx,[I] (R215). -/
  | ldVxMemI (x : Nibble)
  deriving DecidableEq, Repr

end Sys2Proof
end

