-- ==== Sys2Proof/WellFormed.lean ====
section
/-! DEFINITION. Which instructions have an encoding. Operand ranges are in the operand types, so one check remains. -/

namespace Sys2Proof

/-- 0x00E0 and 0x00EE are CLS and RET, which "take precedence over SYS" (30_encoding R96, R99): SYS 0x0E0 and
SYS 0x0EE are the two terms that no word encodes (DEDUCED, safe: log 12). -/
def Instr.wf : Instr → Bool
  | .sysNnn nnn => nnn != 0x0E0#12 && nnn != 0x0EE#12
  | .cls | .ret | .jpNnn _ | .callNnn _ | .seVxKk _ _ | .sneVxKk _ _ | .seVxVy _ _ | .ldVxKk _ _ | .addVxKk _ _ => true
  | .ldVxVy _ _ | .orVxVy _ _ | .andVxVy _ _ | .xorVxVy _ _ | .addVxVy _ _ | .subVxVy _ _ | .shrVxVy _ _ => true
  | .subnVxVy _ _ | .shlVxVy _ _ | .sneVxVy _ _ | .ldINnn _ | .jpV0Nnn _ | .rndVxKk _ _ | .drwVxVyN _ _ _ => true
  | .skpVx _ | .sknpVx _ | .ldVxDt _ | .ldVxK _ | .ldDtVx _ | .ldStVx _ | .addIVx _ | .ldFVx _ | .ldBVx _ => true
  | .ldMemIVx _ | .ldVxMemI _ => true

end Sys2Proof
end

