-- ==== Sys2Proof/Decode.lean ====
section
/-! DEFINITION. The Opcode Decoder (30_encoding R90 to R100), then the encoder from the same table (R96).
The numeric opcodes follow R96, 29 of which the spec takes from general knowledge (its G1; PRESUMED, unsafe: log 13). -/

namespace Sys2Proof

/-- Why bytes are not an instruction. -/
inductive DecodeError where
  /-- The verdict `unimplemented` (30_encoding R98); the Dispatcher raises UnimplementedOpcode on it (R100). -/
  | unimplemented (w : Word)
  /-- Fewer than the two bytes an instruction has (R90). -/
  | truncated
  deriving DecidableEq, Repr

/-- `op = w[15:12]`, the family (30_encoding R91). -/
def fieldOp (w : Word) : Nibble := w.extractLsb' 12 4

/-- `x = w[11:8]` (30_encoding R91; the spec's decision D2). -/
def fieldX (w : Word) : Nibble := w.extractLsb' 8 4

/-- `y = w[7:4]` (30_encoding R91; the spec's decision D2). -/
def fieldY (w : Word) : Nibble := w.extractLsb' 4 4

/-- `n = w[3:0]` (30_encoding R91). -/
def fieldN (w : Word) : Nibble := w.extractLsb' 0 4

/-- `kk = w[7:0]` (30_encoding R91). -/
def fieldKk (w : Word) : Byte := w.extractLsb' 0 8

/-- `nnn = w[11:0]` (30_encoding R91). -/
def fieldNnn (w : Word) : Addr := w.extractLsb' 0 12

/-- Family 0x8, keyed by the low nibble (30_encoding R95, R96 rows 11 to 19). -/
def decodeFamily8 (w : Word) : Except DecodeError Instr :=
  let x := fieldX w
  let y := fieldY w
  let d := fieldN w
  if d = 0x0#4 then .ok (.ldVxVy x y)
  else if d = 0x1#4 then .ok (.orVxVy x y)
  else if d = 0x2#4 then .ok (.andVxVy x y)
  else if d = 0x3#4 then .ok (.xorVxVy x y)
  else if d = 0x4#4 then .ok (.addVxVy x y)
  else if d = 0x5#4 then .ok (.subVxVy x y)
  else if d = 0x6#4 then .ok (.shrVxVy x y)
  else if d = 0x7#4 then .ok (.subnVxVy x y)
  else if d = 0xE#4 then .ok (.shlVxVy x y)
  else .error (.unimplemented w)

/-- Family 0xE, keyed by the low byte (30_encoding R95, R96 rows 25 and 26). -/
def decodeFamilyE (w : Word) : Except DecodeError Instr :=
  let x := fieldX w
  let d := fieldKk w
  if d = 0x9E#8 then .ok (.skpVx x)
  else if d = 0xA1#8 then .ok (.sknpVx x)
  else .error (.unimplemented w)

/-- Family 0xF, keyed by the low byte (30_encoding R95, R96 rows 27 to 35). -/
def decodeFamilyF (w : Word) : Except DecodeError Instr :=
  let x := fieldX w
  let d := fieldKk w
  if d = 0x07#8 then .ok (.ldVxDt x)
  else if d = 0x0A#8 then .ok (.ldVxK x)
  else if d = 0x15#8 then .ok (.ldDtVx x)
  else if d = 0x18#8 then .ok (.ldStVx x)
  else if d = 0x1E#8 then .ok (.addIVx x)
  else if d = 0x29#8 then .ok (.ldFVx x)
  else if d = 0x33#8 then .ok (.ldBVx x)
  else if d = 0x55#8 then .ok (.ldMemIVx x)
  else if d = 0x65#8 then .ok (.ldVxMemI x)
  else .error (.unimplemented w)

/-- `Decode(w)` (30_encoding R95): the two exact matches, then the family named by the top nibble
(the spec's decision D1: log 14). Families 0x5 and 0x9 do not look at the bottom nibble (R97: log 15). -/
def decodeWord (w : Word) : Except DecodeError Instr :=
  let op := fieldOp w
  if w = 0x00E0#16 then .ok .cls
  else if w = 0x00EE#16 then .ok .ret
  else if op = 0x0#4 then .ok (.sysNnn (fieldNnn w))
  else if op = 0x1#4 then .ok (.jpNnn (fieldNnn w))
  else if op = 0x2#4 then .ok (.callNnn (fieldNnn w))
  else if op = 0x3#4 then .ok (.seVxKk (fieldX w) (fieldKk w))
  else if op = 0x4#4 then .ok (.sneVxKk (fieldX w) (fieldKk w))
  else if op = 0x5#4 then .ok (.seVxVy (fieldX w) (fieldY w))
  else if op = 0x6#4 then .ok (.ldVxKk (fieldX w) (fieldKk w))
  else if op = 0x7#4 then .ok (.addVxKk (fieldX w) (fieldKk w))
  else if op = 0x8#4 then decodeFamily8 w
  else if op = 0x9#4 then .ok (.sneVxVy (fieldX w) (fieldY w))
  else if op = 0xA#4 then .ok (.ldINnn (fieldNnn w))
  else if op = 0xB#4 then .ok (.jpV0Nnn (fieldNnn w))
  else if op = 0xC#4 then .ok (.rndVxKk (fieldX w) (fieldKk w))
  else if op = 0xD#4 then .ok (.drwVxVyN (fieldX w) (fieldY w) (fieldN w))
  else if op = 0xE#4 then decodeFamilyE w
  else decodeFamilyF w

/-- The two fetched bytes make the word, the first byte high (20_memory R63). -/
def joinBytes (hi lo : Byte) : Word := hi ++ lo

/-- The byte at the lower address (20_memory R63). -/
def highByte (w : Word) : Byte := w.extractLsb' 8 8

/-- The byte at the higher address (20_memory R63). -/
def lowByte (w : Word) : Byte := w.extractLsb' 0 8

/-- Decoding from bytes, total: the instruction and the bytes after it (30_encoding R90: always two). -/
def decodeBytes : List Byte → Except DecodeError (Instr × List Byte)
  | hi :: lo :: rest =>
    match decodeWord (joinBytes hi lo) with
    | .ok ins => .ok (ins, rest)
    | .error e => .error e
  | [_] => .error .truncated
  | [] => .error .truncated

/-- The instruction word, from the same rows of 30_encoding R96. The nibble that 5xy- and 9xy- ignore is written 0
(R97: "a program should use bottom nibble 0"; log 15). -/
def encode : Instr → Word
  | .cls => 0x00E0#16
  | .ret => 0x00EE#16
  | .sysNnn nnn => 0x0#4 ++ nnn
  | .jpNnn nnn => 0x1#4 ++ nnn
  | .callNnn nnn => 0x2#4 ++ nnn
  | .seVxKk x kk => 0x3#4 ++ x ++ kk
  | .sneVxKk x kk => 0x4#4 ++ x ++ kk
  | .seVxVy x y => 0x5#4 ++ x ++ y ++ 0x0#4
  | .ldVxKk x kk => 0x6#4 ++ x ++ kk
  | .addVxKk x kk => 0x7#4 ++ x ++ kk
  | .ldVxVy x y => 0x8#4 ++ x ++ y ++ 0x0#4
  | .orVxVy x y => 0x8#4 ++ x ++ y ++ 0x1#4
  | .andVxVy x y => 0x8#4 ++ x ++ y ++ 0x2#4
  | .xorVxVy x y => 0x8#4 ++ x ++ y ++ 0x3#4
  | .addVxVy x y => 0x8#4 ++ x ++ y ++ 0x4#4
  | .subVxVy x y => 0x8#4 ++ x ++ y ++ 0x5#4
  | .shrVxVy x y => 0x8#4 ++ x ++ y ++ 0x6#4
  | .subnVxVy x y => 0x8#4 ++ x ++ y ++ 0x7#4
  | .shlVxVy x y => 0x8#4 ++ x ++ y ++ 0xE#4
  | .sneVxVy x y => 0x9#4 ++ x ++ y ++ 0x0#4
  | .ldINnn nnn => 0xA#4 ++ nnn
  | .jpV0Nnn nnn => 0xB#4 ++ nnn
  | .rndVxKk x kk => 0xC#4 ++ x ++ kk
  | .drwVxVyN x y n => 0xD#4 ++ x ++ y ++ n
  | .skpVx x => 0xE#4 ++ x ++ 0x9E#8
  | .sknpVx x => 0xE#4 ++ x ++ 0xA1#8
  | .ldVxDt x => 0xF#4 ++ x ++ 0x07#8
  | .ldVxK x => 0xF#4 ++ x ++ 0x0A#8
  | .ldDtVx x => 0xF#4 ++ x ++ 0x15#8
  | .ldStVx x => 0xF#4 ++ x ++ 0x18#8
  | .addIVx x => 0xF#4 ++ x ++ 0x1E#8
  | .ldFVx x => 0xF#4 ++ x ++ 0x29#8
  | .ldBVx x => 0xF#4 ++ x ++ 0x33#8
  | .ldMemIVx x => 0xF#4 ++ x ++ 0x55#8
  | .ldVxMemI x => 0xF#4 ++ x ++ 0x65#8

/-- The family (top nibble) of every operation (30_encoding R96, column family). -/
def Instr.family : Instr → Nibble
  | .cls | .ret | .sysNnn _ => 0x0
  | .jpNnn _ => 0x1
  | .callNnn _ => 0x2
  | .seVxKk _ _ => 0x3
  | .sneVxKk _ _ => 0x4
  | .seVxVy _ _ => 0x5
  | .ldVxKk _ _ => 0x6
  | .addVxKk _ _ => 0x7
  | .ldVxVy _ _ | .orVxVy _ _ | .andVxVy _ _ | .xorVxVy _ _ | .addVxVy _ _ => 0x8
  | .subVxVy _ _ | .shrVxVy _ _ | .subnVxVy _ _ | .shlVxVy _ _ => 0x8
  | .sneVxVy _ _ => 0x9
  | .ldINnn _ => 0xA
  | .jpV0Nnn _ => 0xB
  | .rndVxKk _ _ => 0xC
  | .drwVxVyN _ _ _ => 0xD
  | .skpVx _ | .sknpVx _ => 0xE
  | .ldVxDt _ | .ldVxK _ | .ldDtVx _ | .ldStVx _ | .addIVx _ | .ldFVx _ | .ldBVx _ | .ldMemIVx _ | .ldVxMemI _ => 0xF

/-- The two bytes of an instruction, lowest address first (20_memory R63). -/
def encodeBytes (ins : Instr) : List Byte := [highByte (encode ins), lowByte (encode ins)]

/-- The word of a table row's `nbits` bits `w`: bit 0 is the word's least significant bit, bits above `nbits` are 0. -/
def tableWord (nbits w : Nat) : Word := BitVec.ofNat 16 (w % 2 ^ nbits)

/-- What the decoder reads from an opcode-table row's bits, laid out in memory order. -/
def decodeTableWord (nbits w : Nat) : Option Instr :=
  match decodeBytes [highByte (tableWord nbits w), lowByte (tableWord nbits w)] with
  | .ok (ins, _) => some ins
  | .error _ => none

end Sys2Proof
end

