-- ==== Sys2Proof/Config.lean ====
section
/-! DEFINITION. The parameters the spec leaves open (00_scope R5) and the model's free values. -/

namespace Sys2Proof

/-- The parameter TIMER_TICK (00_scope R5, 40_cycle R135 and R141; the spec's decision D9). -/
inductive TimerSource where
  /-- One tick at the end of every Running iteration that did not fault (R135), the default. -/
  | perCycle
  /-- Ticks are host events between iterations (R141). -/
  | external
  deriving DecidableEq, Repr

/-- The open parameters a step reads (00_scope R5). No step changes them; a claim over all states
is a claim over all their values (DESIGN CHOICE, safe: log 5). -/
structure Config where
  /-- STACK_DEPTH, entries of the call stack. -/
  stackDepth : Nat
  /-- TIMER_TICK. -/
  timerTick : TimerSource
  deriving DecidableEq, Repr

/-- The values 00_scope R5 gives as defaults: depth 16 (D6), one tick a cycle (D9). -/
def Config.default : Config := { stackDepth := 16, timerTick := .perCycle }

/-- STACK_DEPTH is "any natural ≥ 1" (00_scope R5). -/
def Config.valid (c : Config) : Bool := decide (1 ≤ c.stackDepth)

/-- FREE VALUE. The random byte of a RND for which State lists no answer of the host
(10_state R32: no rule constrains RND_BYTE; log 3). -/
opaque Config.freeByte : Nat → Byte

/-- FREE VALUE. The sixteen key levels (bit k is KEY[k]) of a SKP or SKNP for which State lists no
answer of the host (10_state R32: no rule constrains the keys; log 3). -/
opaque Config.freeKeys : Nat → BitVec 16

end Sys2Proof
end

