-- ==== Sys2Proof/Machine/State.lean ====
section
/-! DEFINITION. The state of the core (10_state R20), the host's pending answers (R32), the state after reset (R36), and
the reasons a step can stop. -/

namespace Sys2Proof.Machine

/-- RUN, the Cycle Driver's state (10_state R29). -/
inductive RunState where
  | running
  | waitingForKey
  | halted
  | stopped
  deriving DecidableEq, Repr

/-- CAUSE (60_exceptions R270). -/
inductive Cause where
  /-- Code 0: RUN is not Halted. -/
  | noFault
  /-- Code 1: the word decodes to nothing (R271). -/
  | unimplementedOpcode
  /-- Code 2: RET with an empty stack (R272). -/
  | stackUnderflow
  /-- Code 3: CALL with a full stack (R273). -/
  | stackOverflow
  /-- Code 4: SKP or SKNP with V[x] above 0xF (R274). -/
  | invalidKeyIndex
  /-- Code 5: an access whose last byte is above 4095 (R275). -/
  | memoryOutOfRange
  deriving DecidableEq, Repr

/-- MEM as (address, byte) pairs: addresses strictly rising, no entry equal to what an unlisted address reads as
(`Memory.wf` in Machine/Ops.lean). -/
abbrev Memory := List Host.Cell

/-- FB, 32 rows (10_state R27): bit c of row r is the pixel `FB[r][c]`, 1 = on. -/
abbrev Framebuffer := Vector (BitVec 64) 32

/-- The host's answers to come (10_state R32), first answer first. The model's own field: a claim over all states is a
claim over all answers (DESIGN CHOICE: log 2, log 3). -/
structure Inputs where
  /-- QUIT, one answer per iteration that begins Running or WaitingForKey; past the list the signal is low. -/
  quit : List Bool
  /-- KEY_EVENT, one answer per WaitingForKey iteration; past the list no event arrives. -/
  keyEvents : List (Option Nibble)
  /-- KEY[15..0], one answer per SKP or SKNP; past the list the levels are free values. -/
  keys : List (BitVec 16)
  /-- RND_BYTE, one answer per RND; past the list the bytes are free values. -/
  rnd : List Byte
  /-- How many TICK events follow each iteration, read only when TIMER_TICK is external; past the list none. -/
  ticks : List Nat
  /-- How many free values have been taken: the index of the next one. -/
  drawn : Nat
  deriving DecidableEq, Repr

/-- A host that has no answer listed (DESIGN CHOICE, unsafe: log 4). -/
def Inputs.silent : Inputs := { quit := [], keyEvents := [], keys := [], rnd := [], ticks := [], drawn := 0 }

/-- The complete state of the core (10_state R20), with the parameters (`cfg`) and the host's answers (`host`) beside it. -/
structure State where
  /-- MEM, 4096 bytes (R28). -/
  mem : Memory
  /-- V0..VF (R21). -/
  v : Vector Byte 16
  /-- I (R23). -/
  i : Word
  /-- PC (R24). -/
  pc : Word
  /-- DT (R25). -/
  dt : Byte
  /-- ST (R25). -/
  st : Byte
  /-- The live call-stack entries, newest first (R26): SP is the length, `STACK[SP-1]` the head. -/
  stack : List Word
  /-- FB (R27). -/
  fb : Framebuffer
  /-- RUN (R29). -/
  run : RunState
  /-- CAUSE (R30). -/
  cause : Cause
  /-- FAULT_ADDR (R30). -/
  faultAddr : Word
  /-- FAULT_WORD (R30). -/
  faultWord : Word
  /-- WAIT_REG (R31). -/
  waitReg : Nibble
  /-- The open parameters (00_scope R5); no step writes them. -/
  cfg : Config
  /-- The host's answers to come (R32). -/
  host : Inputs
  deriving DecidableEq, Repr

/-- The state after reset (10_state R36, 70_reset_and_hazards R310), with the default font, an empty ROM and the default
parameters. PC, FB and RUN as the document says; V, I, DT, ST and SP zero by the spec's decision D14 (DESIGN CHOICE,
unsafe: log 6); WAIT_REG zero (DESIGN CHOICE: log 7); memory lists nothing (log 8); the host is silent (log 4). -/
def State.reset : State where
  mem := []
  v := Vector.replicate 16 0
  i := 0
  pc := 0x200
  dt := 0
  st := 0
  stack := []
  fb := Vector.replicate 32 0
  run := .running
  cause := .noFault
  faultAddr := 0
  faultWord := 0
  waitReg := 0
  cfg := Config.default
  host := Inputs.silent

/-- Why a step stops outside the machine: never. All five faults of 60_exceptions R270 have an entry the spec
describes (R279), so they are next states with RUN = Halted and the fault record (`enterHalted`; log 1). -/
inductive Fault
  deriving DecidableEq, Repr

/-- Why the model gives no step. -/
inductive Refusal where
  /-- An instruction that has no meaning yet, named as spec/opcode_table.json names it. Raised by an arm of `exec` only,
  and by none of them now. Safe: the model stops where the hardware goes on. -/
  | notModelled (mnemonic : String)
  deriving DecidableEq, Repr

/-- What a meaning and a step answer. -/
abbrev Result := Host.Outcome State Fault Refusal

end Sys2Proof.Machine
end

