-- ==== Sys2Proof/Machine/Ops.lean ====
section
/-! DEFINITION. The named operations over memory, registers, the call stack, the display, the timers and the host's
answers, and taking a fault. -/

namespace Sys2Proof.Machine

/-! ### Memory (20_memory) -/

/-- `MEM_SIZE` (00_scope R5). -/
def memSize : Nat := 4096

/-- The default FONT, 16 glyphs of 5 bytes (93_implementation_defined G3; the spec's decision D15; log 8). -/
def defaultFont : List Byte :=
  [0xF0, 0x90, 0x90, 0x90, 0xF0, 0x20, 0x60, 0x20, 0x20, 0x70, 0xF0, 0x10, 0xF0, 0x80, 0xF0, 0xF0, 0x10, 0xF0, 0x10, 0xF0] ++
  [0x90, 0x90, 0xF0, 0x10, 0x10, 0xF0, 0x80, 0xF0, 0x10, 0xF0, 0xF0, 0x80, 0xF0, 0x90, 0xF0, 0xF0, 0x10, 0x20, 0x40, 0x40] ++
  [0xF0, 0x90, 0xF0, 0x90, 0xF0, 0xF0, 0x90, 0xF0, 0x10, 0xF0, 0xF0, 0x90, 0xF0, 0x90, 0x90, 0xE0, 0x90, 0xE0, 0x90, 0xE0] ++
  [0xF0, 0x80, 0x80, 0x80, 0xF0, 0xE0, 0x90, 0x90, 0x90, 0xE0, 0xF0, 0x80, 0xF0, 0x80, 0xF0, 0xF0, 0x80, 0xF0, 0x80, 0x80]

/-- What an address that memory does not list reads as: the default font at 0..79, zero above (10_state R36, 20_memory R61;
log 8). -/
def Memory.unlisted (a : Nat) : Byte := defaultFont.getD a 0

/-- The byte at an address. -/
def Memory.read : Memory → Nat → Byte
  | [], a => Memory.unlisted a
  | (k, c) :: m, a => if k = a then c else Memory.read m a

/-- Puts an entry before `m`, unless it is what an unlisted address reads as. -/
def Memory.entry (a : Nat) (b : Byte) (m : Memory) : Memory := if b = Memory.unlisted a then m else (a, b) :: m

/-- Stores one byte and keeps the canonical form. -/
def Memory.write : Memory → Nat → Byte → Memory
  | [], a, b => Memory.entry a b []
  | (k, c) :: m, a, b =>
    if a < k then Memory.entry a b ((k, c) :: m)
    else if a = k then Memory.entry a b m
    else (k, c) :: Memory.write m a b

/-- Addresses rise strictly from `lo`, lie below 4096, and no entry is what an unlisted address reads as. -/
def Memory.wfFrom (lo : Nat) : Memory → Bool
  | [] => true
  | (k, c) :: m => decide (lo ≤ k) && decide (k < memSize) && c != Memory.unlisted k && Memory.wfFrom (k + 1) m

/-- The canonical form of memory. -/
def Memory.wf (m : Memory) : Bool := Memory.wfFrom 0 m

/-- `n` bytes at consecutive ascending addresses (20_memory R66). -/
def Memory.readBytes (m : Memory) (a : Nat) : Nat → List Byte
  | 0 => []
  | n + 1 => m.read a :: Memory.readBytes m (a + 1) n

/-- A list of bytes stored at consecutive ascending addresses (20_memory R66). -/
def Memory.writeBytes (m : Memory) (a : Nat) : List Byte → Memory
  | [] => m
  | b :: bs => Memory.writeBytes (m.write a b) (a + 1) bs

/-- The bounds check of 20_memory R67, on unbounded integers (R70); no access, no check when `n = 0` (log 22). -/
def inRange (a n : Nat) : Bool := decide (n = 0 ∨ a + n - 1 ≤ 4095)

/-- The byte of MEM at an address. -/
def State.readByte (s : State) (a : Nat) : Byte := s.mem.read a

/-- `MemRead(addr, n)` (00_scope R9): `none` where it raises MemoryOutOfRange. -/
def memRead (a n : Nat) (s : State) : Option (List Byte) :=
  if inRange a n then some (s.mem.readBytes a n) else none

/-- `MemWrite(addr, n, v)` (00_scope R9): `none` where it raises MemoryOutOfRange, and then no byte is written. -/
def memWrite (a : Nat) (bytes : List Byte) (s : State) : Option State :=
  if inRange a bytes.length then some { s with mem := s.mem.writeBytes a bytes } else none

/-! ### Registers (10_state R21 to R25) -/

/-- `V[x]`. -/
def State.getV (s : State) (x : Nibble) : Byte := s.v[x.toFin]

/-- `V[x] <- b`. -/
def State.setV (s : State) (x : Nibble) (b : Byte) : State := { s with v := s.v.set x.toFin b }

/-- `I <- a`. -/
def State.setI (s : State) (a : Word) : State := { s with i := a }

/-- `PC <- a`. -/
def State.setPc (s : State) (a : Word) : State := { s with pc := a }

/-- `DT <- b`. -/
def State.setDt (s : State) (b : Byte) : State := { s with dt := b }

/-- `ST <- b`. -/
def State.setSt (s : State) (b : Byte) : State := { s with st := b }

/-- VF, the only flag (10_state R22). -/
def flagReg : Nibble := 0xF#4

/-- `if c then PC <- PC + 2` (40_cycle R130; the skips of 41_flow and 45_keypad_timers). -/
def skipIf (c : Bool) (s : State) : State := if c then s.setPc (s.pc + 2) else s

/-- `PC <- PC + 2` after the fetch (40_cycle R133). -/
def advancePc (s : State) : State := s.setPc (s.pc + 2)

/-! ### Call stack (10_state R26) -/

/-- SP. -/
def State.sp (s : State) : Nat := s.stack.length

/-- `STACK[k]`, 0 = oldest, for k < SP. -/
def State.stackEntry (s : State) (k : Nat) : Option Word := s.stack.reverse[k]?

/-- `Push(v)`: `none` where it raises StackOverflow. -/
def push (a : Word) (s : State) : Option State :=
  if s.sp < s.cfg.stackDepth then some { s with stack := a :: s.stack } else none

/-- `Pop()`: `none` where it raises StackUnderflow. -/
def pop (s : State) : Option (Word × State) :=
  match s.stack with
  | [] => none
  | a :: rest => some (a, { s with stack := rest })

/-! ### Display (10_state R27) -/

/-- `FB[r][c]`. -/
def pixel (fb : Framebuffer) (r : Fin 32) (c : Fin 64) : Bool := fb[r].getLsbD c.val

/-- `FB[r][c] <- FB[r][c] xor 1`. -/
def togglePixel (fb : Framebuffer) (r : Fin 32) (c : Fin 64) : Framebuffer :=
  fb.set r (fb[r] ^^^ BitVec.twoPow 64 c.val)

/-- Every pixel off. -/
def blankFb : Framebuffer := Vector.replicate 32 0

/-! ### Timer Unit (40_cycle R135) -/

/-- `d - 1 if d > 0 else 0`. -/
def countDown (d : Byte) : Byte := if d = 0 then 0 else d - 1

/-- `TimerTick()`. -/
def timerTick (s : State) : State := { s with dt := countDown s.dt, st := countDown s.st }

/-- `k` ticks, one after the other (40_cycle R141). -/
def timerTicks : Nat → State → State
  | 0, s => s
  | k + 1, s => timerTicks k (timerTick s)

/-! ### The host's answers (10_state R32) -/

/-- QUIT, sampled at the start of an iteration (40_cycle R131). -/
def sampleQuit (s : State) : Bool × State :=
  match s.host.quit with
  | [] => (false, s)
  | q :: rest => (q, { s with host := { s.host with quit := rest } })

/-- KEY_EVENT, sampled once per WaitingForKey iteration (40_cycle R136). -/
def sampleKeyEvent (s : State) : Option Nibble × State :=
  match s.host.keyEvents with
  | [] => (none, s)
  | e :: rest => (e, { s with host := { s.host with keyEvents := rest } })

/-- KEY[15..0], sampled when SKP or SKNP executes (45_keypad_timers R250); free past the listed answers (log 3). -/
def sampleKeys (s : State) : BitVec 16 × State :=
  match s.host.keys with
  | [] => (Config.freeKeys s.host.drawn, { s with host := { s.host with drawn := s.host.drawn + 1 } })
  | k :: rest => (k, { s with host := { s.host with keys := rest } })

/-- RND_BYTE, sampled when RND executes (42_alu R191); free past the listed answers (log 3). -/
def sampleRnd (s : State) : Byte × State :=
  match s.host.rnd with
  | [] => (Config.freeByte s.host.drawn, { s with host := { s.host with drawn := s.host.drawn + 1 } })
  | r :: rest => (r, { s with host := { s.host with rnd := rest } })

/-- How many TICK events follow an iteration (40_cycle R141). -/
def sampleTicks (s : State) : Nat × State :=
  match s.host.ticks with
  | [] => (0, s)
  | k :: rest => (k, { s with host := { s.host with ticks := rest } })

/-! ### Faults (60_exceptions) -/

/-- The 3-bit cause code (60_exceptions R270). -/
def Cause.code : Cause → BitVec 3
  | .noFault => 0
  | .unimplementedOpcode => 1
  | .stackUnderflow => 2
  | .stackOverflow => 3
  | .invalidKeyIndex => 4
  | .memoryOutOfRange => 5

/-- Fault entry (60_exceptions R279): the record is written and RUN becomes Halted; PC and everything else keep their
values. There is no return from a fault (R280). -/
def enterHalted (c : Cause) (addr word : Word) (s : State) : State :=
  { s with run := .halted, cause := c, faultAddr := addr, faultWord := word }

/-- `A0`, the address the executing instruction was fetched from: "during execution PC = A0 + 2" (00_scope R9; log 11). -/
def State.a0 (s : State) : Word := s.pc - 2

/-- `raise <Fault>(A0, w)` by the executing instruction `ins`, with none of its writes (00_scope R9, 40_cycle R138). A
raising instruction has no ignored bits, so its word is `encode ins` (log 11). -/
def raise (c : Cause) (ins : Instr) (s : State) : Result := .next (enterHalted c s.a0 (encode ins) s)

end Sys2Proof.Machine
end

