-- ==== Sys2Proof/Machine/Flags.lean ====
section
/-! DEFINITION. Every flag computation (10_state R22) and the order of result and flag (42_alu R192). -/

namespace Sys2Proof.Machine

/-- A flag value is 0 or 1, never another (10_state R22). -/
def flagByte (f : Bool) : Byte := if f then 1 else 0

/-- Carry: 1 if a + b > 255 (42_alu R186, R193). -/
def carryFlag (a b : Byte) : Byte := flagByte (decide (a.toNat + b.toNat > 255))

/-- No borrow of a - b: 1 if a ≥ b (42_alu R187, R193). -/
def noBorrowFlag (a b : Byte) : Byte := flagByte (decide (a.toNat ≥ b.toNat))

/-- The bit a right shift moves out, `b[0]` (42_alu R188). -/
def shiftRightFlag (b : Byte) : Byte := flagByte (b.getLsbD 0)

/-- The bit a left shift moves out, `b[7]` as 0 or 1 (42_alu R190). -/
def shiftLeftFlag (b : Byte) : Byte := flagByte (b.getLsbD 7)

/-- Result, then flag: the row order of ADD Vx,Vy (42_alu R186, R192; log 16). -/
def setResultThenFlag (x : Nibble) (result flag : Byte) (s : State) : State := (s.setV x result).setV flagReg flag

/-- Flag, then result: the row order of SUB, SUBN, SHR and SHL (42_alu R187 to R190, R192; log 16). -/
def setFlagThenResult (x : Nibble) (flag result : Byte) (s : State) : State := (s.setV flagReg flag).setV x result

end Sys2Proof.Machine
end

