-- ==== Sys2Proof/Machine/Operands.lean ====
section
/-! DEFINITION. Every operand form (30_encoding R92, R94; 43_index_memory): what an instruction's operands stand for. -/

namespace Sys2Proof.Machine

/-- The target nnn, `zext_16(nnn)` (30_encoding R94). -/
def targetNnn (nnn : Addr) : Word := nnn.zeroExtend 16

/-- The target of JP V0,nnn: `zext_16(nnn) + zext_16(V[0])`, not masked (41_flow R158; log 20). -/
def targetV0Nnn (nnn : Addr) (s : State) : Word := nnn.zeroExtend 16 + (s.getV 0#4).zeroExtend 16

/-- The memory address in I, unbounded from here on (20_memory R70). -/
def addrI (s : State) : Nat := s.i.toNat

/-- How many registers x names in a block transfer: V0..Vx (43_index_memory R214). -/
def blockSize (x : Nibble) : Nat := x.toNat + 1

/-- `[ V[0], ..., V[x] ]` (43_index_memory R214). -/
def blockRegs (x : Nibble) (s : State) : List Byte := s.v.toList.take (blockSize x)

/-- `for k in 0 .. : V[k] <- b[k]`, from register `k` on (43_index_memory R215). -/
def setBlock : Nat → List Byte → State → State
  | _, [], s => s
  | k, b :: bs, s => setBlock (k + 1) bs (s.setV (BitVec.ofNat 4 k) b)

/-- `I + x + 1` (43_index_memory R214, R215). -/
def iAfterBlock (x : Nibble) (s : State) : Word := s.i + BitVec.ofNat 16 (blockSize x)

/-- `FONT_BASE + 5 × a` (43_index_memory R212). -/
def glyphAddr (a : Byte) : Word := BitVec.ofNat 16 (5 * a.toNat)

/-- The three decimal digits, hundreds first (43_index_memory R213). -/
def bcdDigits (a : Byte) : List Byte :=
  [BitVec.ofNat 8 (a.toNat / 100), BitVec.ofNat 8 (a.toNat / 10 % 10), BitVec.ofNat 8 (a.toNat % 10)]

/-- `(I + a) mod 65536` (43_index_memory R211; log 17). -/
def iPlus (a : Byte) (s : State) : Word := s.i + a.zeroExtend 16

/-- A key number out of range: `k > 0xF` (45_keypad_timers R250). -/
def badKey (k : Byte) : Bool := decide (k.toNat > 0xF)

/-- `KEY[k]` among the sampled levels (10_state R32). -/
def keyLevel (levels : BitVec 16) (k : Byte) : Bool := levels.getLsbD k.toNat

end Sys2Proof.Machine
end

