-- ==== Sys2Proof/Machine/Alu.lean ====
section
/-! DEFINITION. Register and ALU instructions (42_alu). Operands are read before any write (R192). -/

namespace Sys2Proof.Machine

/-- LD Vx,kk (42_alu R180). -/
def execLdVxKk (x : Nibble) (kk : Byte) (s : State) : Result := .next (s.setV x kk)

/-- ADD Vx,kk: no flag (42_alu R181). -/
def execAddVxKk (x : Nibble) (kk : Byte) (s : State) : Result := .next (s.setV x (s.getV x + kk))

/-- LD Vx,Vy (42_alu R182). -/
def execLdVxVy (x y : Nibble) (s : State) : Result := .next (s.setV x (s.getV y))

/-- OR Vx,Vy (42_alu R183). -/
def execOrVxVy (x y : Nibble) (s : State) : Result := .next (s.setV x (s.getV x ||| s.getV y))

/-- AND Vx,Vy (42_alu R184). -/
def execAndVxVy (x y : Nibble) (s : State) : Result := .next (s.setV x (s.getV x &&& s.getV y))

/-- XOR Vx,Vy (42_alu R185). -/
def execXorVxVy (x y : Nibble) (s : State) : Result := .next (s.setV x (s.getV x ^^^ s.getV y))

/-- ADD Vx,Vy: sum, then carry (42_alu R186). -/
def execAddVxVy (x y : Nibble) (s : State) : Result :=
  let a := s.getV x
  let b := s.getV y
  .next (setResultThenFlag x (a + b) (carryFlag a b) s)

/-- SUB Vx,Vy: no-borrow flag, then Vx − Vy (42_alu R187). -/
def execSubVxVy (x y : Nibble) (s : State) : Result :=
  let a := s.getV x
  let b := s.getV y
  .next (setFlagThenResult x (noBorrowFlag a b) (a - b) s)

/-- SHR Vx,Vy: the bit shifted out of Vy, then Vy >> 1 (42_alu R188). -/
def execShrVxVy (x y : Nibble) (s : State) : Result :=
  let b := s.getV y
  .next (setFlagThenResult x (shiftRightFlag b) (b >>> 1) s)

/-- SUBN Vx,Vy: no-borrow flag, then Vy − Vx (42_alu R189). -/
def execSubnVxVy (x y : Nibble) (s : State) : Result :=
  let a := s.getV x
  let b := s.getV y
  .next (setFlagThenResult x (noBorrowFlag b a) (b - a) s)

/-- SHL Vx,Vy: the bit shifted out of Vy, then Vy << 1 (42_alu R190). -/
def execShlVxVy (x y : Nibble) (s : State) : Result :=
  let b := s.getV y
  .next (setFlagThenResult x (shiftLeftFlag b) (b <<< 1) s)

/-- RND Vx,kk: a host byte masked by kk (42_alu R191). -/
def execRndVxKk (x : Nibble) (kk : Byte) (s : State) : Result :=
  let (r, t) := sampleRnd s
  .next (t.setV x (r &&& kk))

end Sys2Proof.Machine
end

