-- ==== Sys2Proof/Machine/Display.lean ====
section
/-! DEFINITION. Display instructions (44_display). -/

namespace Sys2Proof.Machine

/-- CLS (44_display R230). -/
def execCls (s : State) : Result := .next { s with fb := blankFb }

/-- The framebuffer being drawn on and the collision seen so far (`FB`, `hit` of 44_display R231). -/
structure Canvas where
  fb : Framebuffer
  hit : Bool
  deriving DecidableEq, Repr

/-- One sprite bit: where it is 1, its pixel, wrapped on both axes, is toggled, and a pixel that was on is a hit
(44_display R231). -/
def plotBit (ox oy : Byte) (row col : Nat) (bit : Bool) (p : Canvas) : Canvas :=
  if bit then
    let c := Fin.ofNat 64 (ox.toNat + col)
    let r := Fin.ofNat 32 (oy.toNat + row)
    { fb := togglePixel p.fb r c, hit := p.hit || pixel p.fb r c }
  else p

/-- One sprite row: columns `col` to 7, the most significant bit at column 0 (44_display R231). `left` counts the columns. -/
def plotRow (ox oy : Byte) (row : Nat) (b : Byte) : (left col : Nat) → Canvas → Canvas
  | 0, _, p => p
  | left + 1, col, p => plotRow ox oy row b left (col + 1) (plotBit ox oy row col (b.getLsbD (7 - col)) p)

/-- The sprite's rows from `row` on (44_display R231). -/
def plotRows (ox oy : Byte) : (row : Nat) → List Byte → Canvas → Canvas
  | _, [], p => p
  | row, b :: bs, p => plotRows ox oy (row + 1) bs (plotRow ox oy row b 8 0 p)

/-- DRW Vx,Vy,n: the origin is sampled before VF is written; MemoryOutOfRange is checked before any pixel changes; VF is
always written (44_display R231). -/
def execDrwVxVyN (x y n : Nibble) (s : State) : Result :=
  let ox := s.getV x
  let oy := s.getV y
  match memRead (addrI s) n.toNat s with
  | some rows =>
    let p := plotRows ox oy 0 rows { fb := s.fb, hit := false }
    .next ({ s with fb := p.fb }.setV flagReg (flagByte p.hit))
  | none => raise .memoryOutOfRange (.drwVxVyN x y n) s

end Sys2Proof.Machine
end

