-- ==== Sys2Proof/Machine/Flow.lean ====
section
/-! DEFINITION. Control flow (41_flow). On entry PC = A0 + 2. -/

namespace Sys2Proof.Machine

/-- SYS nnn: "(no effect)" (41_flow R150). -/
def execSysNnn (_nnn : Addr) (s : State) : Result := .next s

/-- RET: `PC <- Pop()`; StackUnderflow on an empty stack (41_flow R151). -/
def execRet (s : State) : Result :=
  match pop s with
  | some (a, t) => .next (t.setPc a)
  | none => raise .stackUnderflow .ret s

/-- JP nnn: `PC <- zext_16(nnn)` (41_flow R152). -/
def execJpNnn (nnn : Addr) (s : State) : Result := .next (s.setPc (targetNnn nnn))

/-- CALL nnn: `Push(PC); PC <- zext_16(nnn)`; StackOverflow on a full stack (41_flow R153). -/
def execCallNnn (nnn : Addr) (s : State) : Result :=
  match push s.pc s with
  | some t => .next (t.setPc (targetNnn nnn))
  | none => raise .stackOverflow (.callNnn nnn) s

/-- SE Vx,kk: skip if equal (41_flow R154). -/
def execSeVxKk (x : Nibble) (kk : Byte) (s : State) : Result := .next (skipIf (s.getV x == kk) s)

/-- SNE Vx,kk: skip if different (41_flow R155). -/
def execSneVxKk (x : Nibble) (kk : Byte) (s : State) : Result := .next (skipIf (s.getV x != kk) s)

/-- SE Vx,Vy: skip if equal (41_flow R156). -/
def execSeVxVy (x y : Nibble) (s : State) : Result := .next (skipIf (s.getV x == s.getV y) s)

/-- SNE Vx,Vy: skip if different (41_flow R157). -/
def execSneVxVy (x y : Nibble) (s : State) : Result := .next (skipIf (s.getV x != s.getV y) s)

/-- JP V0,nnn: `PC <- nnn + V[0]` (41_flow R158). -/
def execJpV0Nnn (nnn : Addr) (s : State) : Result := .next (s.setPc (targetV0Nnn nnn s))

end Sys2Proof.Machine
end

