-- ==== Sys2Proof/Machine/Index.lean ====
section
/-! DEFINITION. Address-register and memory instructions (43_index_memory). -/

namespace Sys2Proof.Machine

/-- LD I,nnn (43_index_memory R210). -/
def execLdINnn (nnn : Addr) (s : State) : Result := .next (s.setI (targetNnn nnn))

/-- ADD I,Vx: modulo 65536, no flag (43_index_memory R211). -/
def execAddIVx (x : Nibble) (s : State) : Result := .next (s.setI (iPlus (s.getV x) s))

/-- LD F,Vx: all 8 bits of Vx, no access (43_index_memory R212; log 18). -/
def execLdFVx (x : Nibble) (s : State) : Result := .next (s.setI (glyphAddr (s.getV x)))

/-- LD B,Vx: three digits at I; I unchanged (43_index_memory R213). -/
def execLdBVx (x : Nibble) (s : State) : Result :=
  match memWrite (addrI s) (bcdDigits (s.getV x)) s with
  | some t => .next t
  | none => raise .memoryOutOfRange (.ldBVx x) s

/-- LD [I],Vx: V0..Vx to memory, I advanced (43_index_memory R214). -/
def execLdMemIVx (x : Nibble) (s : State) : Result :=
  match memWrite (addrI s) (blockRegs x s) s with
  | some t => .next (t.setI (iAfterBlock x s))
  | none => raise .memoryOutOfRange (.ldMemIVx x) s

/-- LD Vx,[I]: V0..Vx from memory, I advanced (43_index_memory R215). -/
def execLdVxMemI (x : Nibble) (s : State) : Result :=
  match memRead (addrI s) (blockSize x) s with
  | some bytes => .next ((setBlock 0 bytes s).setI (iAfterBlock x s))
  | none => raise .memoryOutOfRange (.ldVxMemI x) s

end Sys2Proof.Machine
end

