-- ==== Sys2Proof/Machine/Keypad.lean ====
section
/-! DEFINITION. Keypad and timer instructions (45_keypad_timers). -/

namespace Sys2Proof.Machine

/-- SKP Vx: skip if KEY[Vx] is pressed; InvalidKeyIndex above 0xF (45_keypad_timers R250). -/
def execSkpVx (x : Nibble) (s : State) : Result :=
  let k := s.getV x
  if badKey k then raise .invalidKeyIndex (.skpVx x) s
  else
    let (levels, t) := sampleKeys s
    .next (skipIf (keyLevel levels k) t)

/-- SKNP Vx: skip if KEY[Vx] is not pressed; InvalidKeyIndex above 0xF (45_keypad_timers R251). -/
def execSknpVx (x : Nibble) (s : State) : Result :=
  let k := s.getV x
  if badKey k then raise .invalidKeyIndex (.sknpVx x) s
  else
    let (levels, t) := sampleKeys s
    .next (skipIf (!keyLevel levels k) t)

/-- LD Vx,DT (45_keypad_timers R252). -/
def execLdVxDt (x : Nibble) (s : State) : Result := .next (s.setV x s.dt)

/-- LD Vx,K: enter WaitingForKey with WAIT_REG = x (45_keypad_timers R253). -/
def execLdVxK (x : Nibble) (s : State) : Result := .next { s with waitReg := x, run := .waitingForKey }

/-- LD DT,Vx (45_keypad_timers R254). -/
def execLdDtVx (x : Nibble) (s : State) : Result := .next (s.setDt (s.getV x))

/-- LD ST,Vx (45_keypad_timers R255). -/
def execLdStVx (x : Nibble) (s : State) : Result := .next (s.setSt (s.getV x))

end Sys2Proof.Machine
end

