-- ==== Sys2Proof/Machine/Cycle.lean ====
section
/-! DEFINITION. The Cycle Driver: fetch, advance, decode, dispatch, tick (40_cycle R130 to R141). -/

namespace Sys2Proof.Machine

/-- The fetch: `MEM[PC] ‖ MEM[PC+1]`, `none` where it raises MemoryOutOfRange (40_cycle R132). -/
def fetch (s : State) : Option Word :=
  match memRead s.pc.toNat 2 s with
  | some [hi, lo] => some (joinBytes hi lo)
  | some _ => none
  | none => none

/-- What follows a dispatched instruction that did not fault: the per-cycle tick (40_cycle R130, R135). -/
def endOfInstruction (s : State) : State :=
  if s.run = .halted then s
  else if s.cfg.timerTick = .perCycle then timerTick s
  else s

/-- What follows a whole iteration when ticks are the host's: "any number of them", in any RUN state except Halted and
Stopped (40_cycle R141; log 24). -/
def betweenIterations (s : State) : State :=
  if s.cfg.timerTick = .external ∧ (s.run = .running ∨ s.run = .waitingForKey) then
    let (k, t) := sampleTicks s
    timerTicks k t
  else s

/-- Applies `f` to a next state. -/
def onNext (f : State → State) : Result → Result
  | .next s => .next (f s)
  | .fault r => .fault r
  | .refused r => .refused r

/-- The Running part of an iteration (40_cycle R130, R132 to R135, R138). -/
def runningIteration (s : State) : Result :=
  match fetch s with
  | none => .next (enterHalted .memoryOutOfRange s.pc 0 s)
  | some w =>
    match decodeWord w with
    | .error _ => .next (enterHalted .unimplementedOpcode s.pc w (advancePc s))
    | .ok ins => onNext endOfInstruction (exec ins (advancePc s))

/-- The WaitingForKey part of an iteration: no fetch, no tick, PC unchanged (40_cycle R136). -/
def waitingIteration (s : State) : State :=
  match sampleKeyEvent s with
  | (some k, t) => { t.setV t.waitReg (k.zeroExtend 8) with run := .running }
  | (none, t) => t

/-- `Iteration()` (40_cycle R130): Halted and Stopped change nothing (R137); QUIT is looked at first (R131). -/
def iteration (s : State) : Result :=
  match s.run with
  | .halted => .next s
  | .stopped => .next s
  | .running =>
    match sampleQuit s with
    | (true, t) => .next { t with run := .stopped }
    | (false, t) => runningIteration t
  | .waitingForKey =>
    match sampleQuit s with
    | (true, t) => .next { t with run := .stopped }
    | (false, t) => .next (waitingIteration t)

/-- One step: an iteration, and the host's ticks before the next one. -/
def cycle (s : State) : Result := onNext betweenIterations (iteration s)

/-- The instruction the iteration from `s` dispatches, if it dispatches one (40_cycle R130, R134). -/
def dispatched (s : State) : Option Instr :=
  if s.run = .running ∧ (sampleQuit s).1 = false then
    match fetch s with
    | some w => (decodeWord w).toOption
    | none => none
  else none

/-- `s` with the word `w` stored at PC, big-endian, in a state whose next iteration fetches there: Running, QUIT low, PC in
range (log 9). From `State.reset` only the two bytes change. -/
def placeWord (w : Word) (s : State) : State :=
  let pc := if s.pc.toNat ≤ 4094 then s.pc else 0x200
  { s with
    pc := pc
    mem := s.mem.writeBytes pc.toNat [highByte w, lowByte w]
    run := .running
    host := if (sampleQuit s).1 then { s.host with quit := false :: s.host.quit.tail } else s.host }

end Sys2Proof.Machine
end

