-- ==== Sys2Proof/Machine/Step.lean ====
section
/-! DEFINITION. The step of the machine: one iteration of the Cycle Driver (40_cycle R130). -/

namespace Sys2Proof.Machine

/-- One step of the core (00_scope R6, 40_cycle R130). -/
def step (s : State) : Host.Outcome State Fault Refusal := cycle s

/-- `s` with an opcode-table row's bits stored where the next step fetches (log 9). -/
def State.withFetchWord (s : State) (nbits w : Nat) : State := placeWord (tableWord nbits w) s

end Sys2Proof.Machine
end

