-- ==== Sys2Proof/Machine/Boot.lean ====
section
/-! DEFINITION. RESET with the host's images and parameters (70_reset_and_hazards R310, R311; 60_exceptions R276). -/

namespace Sys2Proof.Machine

/-- The loaders' errors, preconditions of reset that the core never raises (60_exceptions R276). -/
inductive LoaderError where
  /-- The font is not exactly 80 bytes (R311). -/
  | fontLoadError
  /-- The ROM is longer than 3584 bytes (R311). -/
  | romLoadError
  deriving DecidableEq, Repr

/-- MEM after reset: FONT at 0x000, ROM at 0x200, zero elsewhere (10_state R36). -/
def bootMemory (font rom : List Byte) : Memory := Memory.writeBytes (Memory.writeBytes [] 0 font) 0x200 rom

/-- RESET with images, parameters and the host's answers to come (70_reset_and_hazards R310). The loaders' errors are those of
R311 and 60_exceptions R276; where both images are illegal the spec gives no order, and the model answers the font's error
(DESIGN CHOICE: log 31). -/
def State.resetWith (font rom : List Byte) (cfg : Config) (host : Inputs) : Except LoaderError State :=
  if font.length ≠ 80 then .error .fontLoadError
  else if rom.length > 3584 then .error .romLoadError
  else .ok { State.reset with mem := bootMemory font rom, cfg := cfg, host := host }

/-- The RESET event, possible in every state (10_state R29, R32; 60_exceptions R280): the parameters stay, the host goes on
answering (log 10). -/
def hostReset (font rom : List Byte) (s : State) : Except LoaderError State := State.resetWith font rom s.cfg s.host

end Sys2Proof.Machine
end

