-- ==== Sys2Proof/Machine/Outputs.lean ====
section
/-! DEFINITION. The outputs of the core (10_state R33), functions of State and of the iteration. -/

namespace Sys2Proof.Machine

/-- The level outputs (10_state R33). -/
structure Outputs where
  /-- FB_OUT. -/
  fbOut : Framebuffer
  /-- SOUND_ON. -/
  soundOn : Bool
  /-- WAITING. -/
  waiting : Bool
  /-- HALTED. -/
  halted : Bool
  /-- CAUSE_OUT. -/
  causeOut : BitVec 3
  /-- FAULT_ADDR_OUT. -/
  faultAddrOut : Word
  /-- FAULT_WORD_OUT. -/
  faultWordOut : Word
  /-- STOPPED. -/
  stopped : Bool
  deriving DecidableEq, Repr

/-- What the host sees of a state (10_state R33). -/
def outputs (s : State) : Outputs where
  fbOut := s.fb
  soundOn := s.st != 0
  waiting := decide (s.run = .waitingForKey)
  halted := decide (s.run = .halted)
  causeOut := s.cause.code
  faultAddrOut := s.faultAddr
  faultWordOut := s.faultWord
  stopped := decide (s.run = .stopped)

/-- FB_UPDATED in the iteration from `s`: its instruction was CLS or a DRW that did not fault, whether or not a pixel
changed (44_display R232; log 27). -/
def fbUpdated (s : State) : Bool :=
  match dispatched s, step s with
  | some .cls, .next _ => true
  | some (.drwVxVyN _ _ _), .next t => decide (t.run ≠ .halted)
  | _, _ => false

end Sys2Proof.Machine
end

