-- ==== Sys2Proof/Safety.lean ====
section
/-! DEFINITION. What counts as a safe run, and the invariants and frames that statements use. -/

namespace Sys2Proof.Machine

/-- A state no fault has halted: "Halted is a fault state, never a final state" (60_exceptions R279). -/
abbrev State.unfaulted (s : State) : Prop := s.run ≠ .halted

/-- The call stack fits its depth (10_state R26). -/
abbrev State.stackFits (s : State) : Prop := s.sp ≤ s.cfg.stackDepth

/-- The fault record is meaningful exactly when RUN = Halted, and zero otherwise (10_state R30). -/
abbrev State.recordFits (s : State) : Prop :=
  (s.run = .halted ↔ s.cause ≠ .noFault) ∧ (s.run ≠ .halted → s.faultAddr = 0 ∧ s.faultWord = 0)

/-- PC and every saved PC stay in the ranges of 10_state R24 and 41_flow R151: PC at most 0x10FE, a saved PC some
`A0 + 2` of a CALL, at most 4096. -/
abbrev State.pcFits (s : State) : Prop :=
  s.pc.toNat ≤ 0x10FE ∧ ∀ a ∈ s.stack, 2 ≤ a.toNat ∧ a.toNat ≤ 4096

/-- The invariant of the machine: canonical memory, a stack that fits, a consistent fault record, a PC in range, legal
parameters. -/
abbrev State.Inv (s : State) : Prop :=
  s.mem.wf = true ∧ s.stackFits ∧ s.recordFits ∧ s.pcFits ∧ s.cfg.valid = true

/-- The states of a run: RESET with images (70_reset_and_hazards R310), steps, and RESET again at any time (10_state R29). -/
inductive Reachable : State → Prop where
  | boot (font rom : List Byte) (cfg : Config) (host : Inputs) (s : State) :
      cfg.valid = true → State.resetWith font rom cfg host = .ok s → Reachable s
  | step (s t : State) : Reachable s → Machine.step s = .next t → Reachable t
  | again (font rom : List Byte) (s t : State) : Reachable s → hostReset font rom s = .ok t → Reachable t

/-- Every byte of memory reads as before. -/
def SameMemory (s t : State) : Prop := ∀ a, t.readByte a = s.readByte a

/-- Every byte of memory outside the `n` bytes from `a` on reads as before. -/
def SameMemoryOutside (a n : Nat) (s t : State) : Prop := ∀ b, (b < a ∨ a + n ≤ b) → t.readByte b = s.readByte b

/-- Only general registers changed. -/
def OnlyV (s t : State) : Prop := t = { s with v := t.v } ∧ SameMemory s t

/-- Only PC changed. -/
def OnlyPc (s t : State) : Prop := t = { s with pc := t.pc } ∧ SameMemory s t

/-- Only I changed. -/
def OnlyI (s t : State) : Prop := t = { s with i := t.i } ∧ SameMemory s t

/-- Nothing changed but RUN and the fault record, written as 60_exceptions R279 says: cause `c`, the address the
instruction was fetched from, its word. -/
def FaultedWith (c : Cause) (word : Word) (s t : State) : Prop :=
  t = { s with run := .halted, cause := c, faultAddr := s.pc - 2, faultWord := word }

end Sys2Proof.Machine
end

