-- ==== Sys2Proof/Certificates/Slice0/Obligations.lean ====
section
/-! DEFINITION. The statements for the provers, from the spec's numbered rules. Each docstring names the rule, the log
entries (notes/assumptions) and the decisions D<n> of the spec a clause rests on. -/

open Sys2Proof Sys2Proof.Machine

/-! ### Encoding (30_encoding) -/

/-- Words written out from 30_encoding R96 and the vectors E1 to E12 and S12 of 95_test_vectors (opcodes and the places of x
and y: D2, D3, log 13; the two refusals: D1, log 14; the ignored nibble of 0x512F: D25, log 15). -/
def Obligations.SampleWordsDecodeAsTheTableSays : Prop :=
  decodeWord 0x0000#16 = .ok (.sysNnn 0x000#12) ∧ decodeWord 0x00E0#16 = .ok .cls ∧ decodeWord 0x00EE#16 = .ok .ret ∧
  decodeWord 0x1ABC#16 = .ok (.jpNnn 0xABC#12) ∧ decodeWord 0x3A05#16 = .ok (.seVxKk 0xA#4 0x05#8) ∧
  decodeWord 0x6A05#16 = .ok (.ldVxKk 0xA#4 0x05#8) ∧ decodeWord 0x8014#16 = .ok (.addVxVy 0x0#4 0x1#4) ∧
  decodeWord 0x512F#16 = .ok (.seVxVy 0x1#4 0x2#4) ∧ decodeWord 0xA2F0#16 = .ok (.ldINnn 0x2F0#12) ∧
  decodeWord 0xD125#16 = .ok (.drwVxVyN 0x1#4 0x2#4 0x5#4) ∧ decodeWord 0xE5A1#16 = .ok (.sknpVx 0x5#4) ∧
  decodeWord 0xF055#16 = .ok (.ldMemIVx 0x0#4) ∧ decodeWord 0xF265#16 = .ok (.ldVxMemI 0x2#4) ∧
  decodeWord 0x812D#16 = .error (.unimplemented 0x812D#16) ∧ decodeWord 0xF017#16 = .error (.unimplemented 0xF017#16)

/-- 30_encoding R95, R96: no operand bit is dropped, in words and in bytes. The two SYS terms that no word encodes are
shut out by `wf` (log 12). -/
def Obligations.DecodeOfEncodeIsTheInstruction : Prop :=
  ∀ (ins : Instr) (rest : List Byte), ins.wf = true →
    decodeWord (encode ins) = .ok ins ∧ decodeBytes (encodeBytes ins ++ rest) = .ok (ins, rest)

/-- 30_encoding R96, R97: a decoded word is the encoding of what it decodes to, but for the bottom nibble that families
0x5 and 0x9 ignore (log 15). -/
def Obligations.EncodeOfDecodeIsTheWord : Prop :=
  ∀ (w : Word) (ins : Instr), decodeWord w = .ok ins →
    ins.wf = true ∧ encode ins = if fieldOp w = 0x5#4 ∨ fieldOp w = 0x9#4 then w &&& 0xFFF0#16 else w

/-- A row of the opcode map: "the word w selects the row when (w and mask) = match" (30_encoding R96). -/
structure OpcodeRow where
  mask : Word
  pattern : Word
  build : Word → Instr

/-- 30_encoding R96 in first-match order, CLS and RET before SYS (spec/opcode_table.json, `priority`). -/
def opcodeRows : List OpcodeRow :=
  [⟨0xFFFF, 0x00E0, fun _ => .cls⟩, ⟨0xFFFF, 0x00EE, fun _ => .ret⟩, ⟨0xF000, 0x0000, fun w => .sysNnn (fieldNnn w)⟩,
   ⟨0xF000, 0x1000, fun w => .jpNnn (fieldNnn w)⟩, ⟨0xF000, 0x2000, fun w => .callNnn (fieldNnn w)⟩,
   ⟨0xF000, 0x3000, fun w => .seVxKk (fieldX w) (fieldKk w)⟩, ⟨0xF000, 0x4000, fun w => .sneVxKk (fieldX w) (fieldKk w)⟩,
   ⟨0xF000, 0x5000, fun w => .seVxVy (fieldX w) (fieldY w)⟩, ⟨0xF000, 0x6000, fun w => .ldVxKk (fieldX w) (fieldKk w)⟩,
   ⟨0xF000, 0x7000, fun w => .addVxKk (fieldX w) (fieldKk w)⟩] ++
  [⟨0xF00F, 0x8000, fun w => .ldVxVy (fieldX w) (fieldY w)⟩, ⟨0xF00F, 0x8001, fun w => .orVxVy (fieldX w) (fieldY w)⟩,
   ⟨0xF00F, 0x8002, fun w => .andVxVy (fieldX w) (fieldY w)⟩, ⟨0xF00F, 0x8003, fun w => .xorVxVy (fieldX w) (fieldY w)⟩,
   ⟨0xF00F, 0x8004, fun w => .addVxVy (fieldX w) (fieldY w)⟩, ⟨0xF00F, 0x8005, fun w => .subVxVy (fieldX w) (fieldY w)⟩,
   ⟨0xF00F, 0x8006, fun w => .shrVxVy (fieldX w) (fieldY w)⟩, ⟨0xF00F, 0x8007, fun w => .subnVxVy (fieldX w) (fieldY w)⟩,
   ⟨0xF00F, 0x800E, fun w => .shlVxVy (fieldX w) (fieldY w)⟩, ⟨0xF000, 0x9000, fun w => .sneVxVy (fieldX w) (fieldY w)⟩] ++
  [⟨0xF000, 0xA000, fun w => .ldINnn (fieldNnn w)⟩, ⟨0xF000, 0xB000, fun w => .jpV0Nnn (fieldNnn w)⟩,
   ⟨0xF000, 0xC000, fun w => .rndVxKk (fieldX w) (fieldKk w)⟩,
   ⟨0xF000, 0xD000, fun w => .drwVxVyN (fieldX w) (fieldY w) (fieldN w)⟩,
   ⟨0xF0FF, 0xE09E, fun w => .skpVx (fieldX w)⟩, ⟨0xF0FF, 0xE0A1, fun w => .sknpVx (fieldX w)⟩,
   ⟨0xF0FF, 0xF007, fun w => .ldVxDt (fieldX w)⟩, ⟨0xF0FF, 0xF00A, fun w => .ldVxK (fieldX w)⟩] ++
  [⟨0xF0FF, 0xF015, fun w => .ldDtVx (fieldX w)⟩, ⟨0xF0FF, 0xF018, fun w => .ldStVx (fieldX w)⟩,
   ⟨0xF0FF, 0xF01E, fun w => .addIVx (fieldX w)⟩, ⟨0xF0FF, 0xF029, fun w => .ldFVx (fieldX w)⟩,
   ⟨0xF0FF, 0xF033, fun w => .ldBVx (fieldX w)⟩, ⟨0xF0FF, 0xF055, fun w => .ldMemIVx (fieldX w)⟩,
   ⟨0xF0FF, 0xF065, fun w => .ldVxMemI (fieldX w)⟩]

/-- 30_encoding R96: the decoder is the first-match lookup in the opcode map, on all 65536 words (log 13, log 14). -/
def Obligations.DecoderIsFirstMatchInTheOpcodeMap : Prop :=
  ∀ w : Word, decodeWord w =
    match opcodeRows.find? (fun r => w &&& r.mask == r.pattern) with
    | some r => .ok (r.build w)
    | none => .error (.unimplemented w)

/-- 30_encoding R98: the words refused, and no other verdict (decision D1: log 14; the listed opcode values, from general
knowledge, G1, D3: log 13). -/
def Obligations.IllegalWordsAreExactlyThoseListed : Prop :=
  ∀ w : Word,
    (decodeWord w = .error (.unimplemented w) ↔
      (fieldOp w = 0x8#4 ∧ fieldN w ∈ [0x8#4, 0x9#4, 0xA#4, 0xB#4, 0xC#4, 0xD#4, 0xF#4]) ∨
      (fieldOp w = 0xE#4 ∧ fieldKk w ∉ [0x9E#8, 0xA1#8]) ∨
      (fieldOp w = 0xF#4 ∧ fieldKk w ∉ [0x07#8, 0x0A#8, 0x15#8, 0x18#8, 0x1E#8, 0x29#8, 0x33#8, 0x55#8, 0x65#8])) ∧
    ((∃ ins, decodeWord w = .ok ins) ∨ decodeWord w = .error (.unimplemented w))

/-- 30_encoding R91, R94: the fields as slices of the word, used as unsigned numbers (x and y: decision D2, log 13). -/
def Obligations.FieldsAreTheSlicesOfTheWord : Prop :=
  ∀ w : Word,
    (fieldOp w).toNat = w.toNat / 4096 ∧ (fieldX w).toNat = w.toNat / 256 % 16 ∧ (fieldY w).toNat = w.toNat / 16 % 16 ∧
    (fieldN w).toNat = w.toNat % 16 ∧ (fieldKk w).toNat = w.toNat % 256 ∧ (fieldNnn w).toNat = w.toNat % 4096 ∧
    (targetNnn (fieldNnn w)).toNat = (fieldNnn w).toNat

/-! ### The cycle (40_cycle) -/

/-- 20_memory R63 and R65: the fetch, big-endian, at every PC that leaves both bytes in MEM, even or odd (an odd PC fetches:
decision D8, log 20); with R63's example. -/
def Obligations.FetchIsBigEndian : Prop :=
  ∀ s : State, s.pc.toNat ≤ 4094 →
    (∃ w, fetch s = some w ∧ w = s.readByte s.pc.toNat ++ s.readByte (s.pc.toNat + 1) ∧
      w.extractLsb' 8 8 = s.readByte s.pc.toNat ∧ w.extractLsb' 0 8 = s.readByte (s.pc.toNat + 1)) ∧
    (s.pc = 0x200#16 → s.readByte 0x200 = 0x6A#8 → s.readByte 0x201 = 0x05#8 → fetch s = some 0x6A05#16)

/-- 40_cycle R130, R133, R134: when the two bytes at PC decode to an instruction, the step runs it with PC advanced by 2;
around it stand the tick of the cycle (decisions D9, D10: log 24) and the host's ticks, whose place inside the step, after the
iteration, is the model's choice (log 24). -/
def Obligations.StepRunsTheDecodedInstruction : Prop :=
  ∀ (s t u : State) (ins : Instr), s.run = .running → sampleQuit s = (false, t) → s.pc.toNat ≤ 4094 →
    decodeBytes [s.readByte s.pc.toNat, s.readByte (s.pc.toNat + 1)] = .ok (ins, []) →
    exec ins { t with pc := s.pc + 2 } = .next u →
    step s = .next (betweenIterations (endOfInstruction u))

/-- 40_cycle R135 (decisions D9, D10: log 24): one tick after an instruction that did not fault, when ticks are the
cycle's. -/
def Obligations.TickFollowsAnUnfaultedInstruction : Prop :=
  ∀ u : State,
    (u.run = .halted → endOfInstruction u = u) ∧
    (u.cfg.timerTick = .external → endOfInstruction u = u) ∧
    (u.run ≠ .halted → u.cfg.timerTick = .perCycle → ∃ t, endOfInstruction u = t ∧
      t.dt.toNat = u.dt.toNat - 1 ∧ t.st.toNat = u.st.toNat - 1 ∧ t = { u with dt := t.dt, st := t.st })

/-- 40_cycle R141 (decision D9; placement: log 24): between iterations, any number of the host's ticks. That one list entry
is the number of ticks after one iteration, and that no entry is no tick, is the model's choice (log 2). -/
def Obligations.HostTicksFallBetweenIterations : Prop :=
  ∀ s : State,
    (s.cfg.timerTick = .perCycle ∨ s.run = .halted ∨ s.run = .stopped → betweenIterations s = s) ∧
    (s.cfg.timerTick = .external → (s.run = .running ∨ s.run = .waitingForKey) →
      (s.host.ticks = [] → betweenIterations s = s) ∧
      ∀ k rest, s.host.ticks = k :: rest → ∃ t, betweenIterations s = t ∧
        t.dt.toNat = s.dt.toNat - k ∧ t.st.toNat = s.st.toNat - k ∧
        t = { s with dt := t.dt, st := t.st, host := { s.host with ticks := rest } })

/-- 40_cycle R131 (decision D21: log 25; the answer list: log 2): QUIT, seen first, stops the core in Running and in WaitingForKey and changes
nothing else. -/
def Obligations.QuitStopsBeforeAnythingElse : Prop :=
  ∀ (s : State) (rest : List Bool), (s.run = .running ∨ s.run = .waitingForKey) → s.host.quit = true :: rest →
    step s = .next { s with run := .stopped, host := { s.host with quit := rest } }

/-- 40_cycle R137 (decision D19: log 23): Halted and Stopped are absorbing. -/
def Obligations.HaltedAndStoppedAreAbsorbing : Prop :=
  ∀ s : State, s.run = .halted ∨ s.run = .stopped → step s = .next s

/-- 40_cycle R132 and 60_exceptions R271 (decisions D4, D5, D18: log 21, log 22, log 23): a fetch above 4094 halts with
FAULT_ADDR = PC, FAULT_WORD = 0 and PC not advanced; a word that decodes to nothing halts with PC = A0 + 2; neither
ticks. -/
def Obligations.FetchAndDecodeFaultsHalt : Prop :=
  ∀ s t : State, s.run = .running → sampleQuit s = (false, t) →
    (s.pc.toNat > 4094 →
      step s = .next { t with run := .halted, cause := .memoryOutOfRange, faultAddr := s.pc, faultWord := 0 }) ∧
    (∀ w, fetch s = some w → decodeWord w = .error (.unimplemented w) →
      step s = .next { t with run := .halted, cause := .unimplementedOpcode, faultAddr := s.pc, faultWord := w,
                              pc := s.pc + 2 })

/-- 40_cycle R136 (decision D16: log 26; no tick while waiting: decision D10, log 24): a WaitingForKey iteration fetches
nothing, leaves PC and does not tick; an event writes V[WAIT_REG] and returns to Running. The host's external ticks after the
iteration (`betweenIterations`) are the model's placement (log 24), the answer lists the model's (log 2). -/
def Obligations.KeyEventEndsTheWait : Prop :=
  ∀ s t : State, s.run = .waitingForKey → sampleQuit s = (false, t) →
    (∀ u, sampleKeyEvent t = (none, u) → step s = .next (betweenIterations u) ∧ u = { s with host := u.host }) ∧
    (∀ k u, sampleKeyEvent t = (some k, u) → ∃ r, step s = .next (betweenIterations r) ∧
      r = { s with run := .running, v := r.v, host := u.host } ∧ (r.getV s.waitReg).toNat = k.toNat ∧
      ∀ j, j ≠ s.waitReg → r.getV j = s.getV j)

/-- 40_cycle R138 (record and Halted: decisions D18, D19, log 23): "Faults are therefore precise". A step from a state that is not halted into Halted changed nothing but
PC (advanced exactly when the fetch succeeded), RUN and the fault record, which holds the address and the word fetched;
and the host's QUIT answer was taken. -/
def Obligations.FaultsArePrecise : Prop :=
  ∀ s t : State, s.run ≠ .halted → step s = .next t → t.run = .halted →
    t = { s with pc := t.pc, run := .halted, cause := t.cause, faultAddr := s.pc, faultWord := t.faultWord,
                 host := (sampleQuit s).2.host } ∧
    t.cause ≠ .noFault ∧
    ((fetch s = none ∧ t.pc = s.pc ∧ t.faultWord = 0) ∨ (∃ w, fetch s = some w ∧ t.pc = s.pc + 2 ∧ t.faultWord = w))

/-- The fault an instruction raises, and its condition: the table of 60_exceptions R270. -/
def expectedFault (ins : Instr) (s : State) : Cause :=
  match ins with
  | .ret => if s.sp = 0 then .stackUnderflow else .noFault
  | .callNnn _ => if s.sp = s.cfg.stackDepth then .stackOverflow else .noFault
  | .skpVx x | .sknpVx x => if (s.getV x).toNat > 0xF then .invalidKeyIndex else .noFault
  | .drwVxVyN _ _ n => if n.toNat ≥ 1 ∧ s.i.toNat + n.toNat - 1 > 4095 then .memoryOutOfRange else .noFault
  | .ldBVx _ => if s.i.toNat + 2 > 4095 then .memoryOutOfRange else .noFault
  | .ldMemIVx x | .ldVxMemI x => if s.i.toNat + x.toNat > 4095 then .memoryOutOfRange else .noFault
  | .cls | .sysNnn _ | .jpNnn _ | .seVxKk _ _ | .sneVxKk _ _ | .seVxVy _ _ | .ldVxKk _ _ | .addVxKk _ _ => .noFault
  | .ldVxVy _ _ | .orVxVy _ _ | .andVxVy _ _ | .xorVxVy _ _ | .addVxVy _ _ | .subVxVy _ _ | .shrVxVy _ _ => .noFault
  | .subnVxVy _ _ | .shlVxVy _ _ | .sneVxVy _ _ | .ldINnn _ | .jpV0Nnn _ | .rndVxKk _ _ | .ldVxDt _ => .noFault
  | .ldVxK _ | .ldDtVx _ | .ldStVx _ | .addIVx _ | .ldFVx _ => .noFault

/-- 60_exceptions R270, R278 (decisions D5, D6, D18, D19: log 5, log 22, log 23): every instruction answers a next state, and it halts with the table's
cause exactly on the table's condition. -/
def Obligations.InstructionsFaultExactlyAsTheTableSays : Prop :=
  ∀ (ins : Instr) (s : State), s.run = .running → s.stackFits →
    ∃ t, exec ins s = .next t ∧ (t.run = .halted ↔ expectedFault ins s ≠ .noFault) ∧
      (expectedFault ins s ≠ .noFault → t.cause = expectedFault ins s)

/-- 00_scope R10 with the model's reading of a fault as the next state Halted (log 1): no step is refused and none ends
outside the machine. -/
def Obligations.EveryStepAnswersANextState : Prop := ∀ s : State, ∃ t, step s = .next t

/-- The iteration from a Running state with QUIT low raises a fault in fetch, decode or execute (60_exceptions R270). -/
def faultRaised (s : State) : Prop :=
  fetch s = none ∨ (∃ w, fetch s = some w ∧ decodeWord w = .error (.unimplemented w)) ∨
    ∃ ins, dispatched s = some ins ∧ expectedFault ins s ≠ .noFault

/-- 10_state R29, every row of the transition table (Halted and Stopped: decisions D19, D21, log 23, log 25; the causes of a
fault: D4 to D6, log 5, log 21, log 22; events: D16, log 26; the answer lists: log 2). That Running becomes Halted exactly on a
fault is stated where the stack fits its depth. -/
def Obligations.RunChangesOnlyAsTheTransitionTableSays : Prop :=
  ∀ s t : State, step s = .next t →
    (s.run = .halted → t.run = .halted) ∧ (s.run = .stopped → t.run = .stopped) ∧
    (s.run = .running ∨ s.run = .waitingForKey → (t.run = .stopped ↔ (sampleQuit s).1 = true)) ∧
    (s.run = .running → t.run = .waitingForKey → ∃ x, dispatched s = some (.ldVxK x) ∧ t.waitReg = x) ∧
    (s.run = .running → ∀ x, dispatched s = some (.ldVxK x) → t.run = .waitingForKey ∧ t.waitReg = x) ∧
    (s.run = .running → s.stackFits → (t.run = .halted ↔ (sampleQuit s).1 = false ∧ faultRaised s)) ∧
    (s.run = .waitingForKey →
      (t.run = .running ↔ (sampleQuit s).1 = false ∧ ∃ k, (sampleKeyEvent (sampleQuit s).2).1 = some k) ∧
      (t.run = .waitingForKey ↔ (sampleQuit s).1 = false ∧ (sampleKeyEvent (sampleQuit s).2).1 = none) ∧
      t.run ≠ .halted)

/-! ### Control flow (41_flow) -/

/-- 41_flow R150, whole: the words that decode to SYS, its effect (none), and the tick of the iteration that runs one
(decisions D9, D10: log 24). -/
def Obligations.SysDoesNothing : Prop :=
  (∀ w : Word, fieldOp w = 0x0#4 → w ≠ 0x00E0#16 → w ≠ 0x00EE#16 → decodeWord w = .ok (.sysNnn (fieldNnn w))) ∧
  (∀ (nnn : Addr) (s : State), exec (.sysNnn nnn) s = .next s) ∧
  (∀ (s t : State) (w : Word) (nnn : Addr), s.run = .running → sampleQuit s = (false, t) → fetch s = some w →
    decodeWord w = .ok (.sysNnn nnn) → s.cfg.timerTick = .perCycle →
    ∃ u, step s = .next u ∧ u = { t with pc := s.pc + 2, dt := u.dt, st := u.st } ∧
      u.dt.toNat = s.dt.toNat - 1 ∧ u.st.toNat = s.st.toNat - 1)

/-- 41_flow R151 (opcode: log 13; fault entry, 60_exceptions R270, R279: D18, D19, log 23): RET pops PC, and underflows on an empty stack. -/
def Obligations.RetPopsThePc : Prop :=
  decodeWord 0x00EE#16 = .ok .ret ∧
  ∀ s : State,
    (∀ a rest, s.stack = a :: rest → ∃ t, exec .ret s = .next t ∧ t = { s with pc := a, stack := rest } ∧
      t.sp + 1 = s.sp ∧ SameMemory s t) ∧
    (s.sp = 0 → ∃ t, exec .ret s = .next t ∧ FaultedWith .stackUnderflow 0x00EE#16 s t)

/-- 41_flow R153 (opcode: log 13; depth: D6, log 5; fault entry, 60_exceptions R270, R279: D18, D19, log 23): CALL pushes the advanced PC, and overflows on a full stack. The full
stack clause takes in the states above the depth, which no run reaches. -/
def Obligations.CallPushesTheAdvancedPc : Prop :=
  ∀ (nnn : Addr) (s : State),
    decodeWord (0x2#4 ++ nnn) = .ok (.callNnn nnn) ∧
    (s.sp < s.cfg.stackDepth → ∃ t, exec (.callNnn nnn) s = .next t ∧ t.pc.toNat = nnn.toNat ∧ t.sp = s.sp + 1 ∧
      t.stackEntry s.sp = some s.pc ∧ (∀ k, k < s.sp → t.stackEntry k = s.stackEntry k) ∧
      t = { s with pc := t.pc, stack := t.stack } ∧ SameMemory s t) ∧
    (s.cfg.stackDepth ≤ s.sp → ∃ t, exec (.callNnn nnn) s = .next t ∧
      FaultedWith .stackOverflow (0x2#4 ++ nnn) s t)

/-- 41_flow R152, R158 (opcodes: log 13; no mask: D30, log 20): both jumps set PC to an absolute target. -/
def Obligations.JumpsSetThePc : Prop :=
  ∀ (nnn : Addr) (s : State),
    (decodeWord (0x1#4 ++ nnn) = .ok (.jpNnn nnn) ∧
      ∃ t, exec (.jpNnn nnn) s = .next t ∧ t.pc.toNat = nnn.toNat ∧ OnlyPc s t) ∧
    (decodeWord (0xB#4 ++ nnn) = .ok (.jpV0Nnn nnn) ∧
      ∃ t, exec (.jpV0Nnn nnn) s = .next t ∧ t.pc.toNat = nnn.toNat + (s.getV 0x0#4).toNat ∧ OnlyPc s t)

/-- 41_flow R154, whole: SE Vx,kk skips exactly when equal; a skip taken at A0 = 4092 or 4094 (PC = 4094 or 4096 on entry)
leaves PC where the next fetch faults (decision D5: log 22). -/
def Obligations.SeVxKkSkipsWhenEqual : Prop :=
  ∀ (x : Nibble) (kk : Byte) (s : State),
    decodeWord (0x3#4 ++ x ++ kk) = .ok (.seVxKk x kk) ∧
    ∃ t, exec (.seVxKk x kk) s = .next t ∧ t.pc = (if s.getV x = kk then s.pc + 2 else s.pc) ∧ OnlyPc s t ∧
      (s.getV x = kk → s.pc.toNat = 4094 ∨ s.pc.toNat = 4096 → t.pc.toNat = s.pc.toNat + 2 ∧ fetch t = none)

/-- 41_flow R155, R156, R157 (opcodes: log 13; ignored nibble n: log 15). -/
def Obligations.OtherSkipsCompare : Prop :=
  ∀ (x y n : Nibble) (kk : Byte) (s : State),
    (decodeWord (0x4#4 ++ x ++ kk) = .ok (.sneVxKk x kk) ∧
      ∃ t, exec (.sneVxKk x kk) s = .next t ∧ t.pc = (if s.getV x ≠ kk then s.pc + 2 else s.pc) ∧ OnlyPc s t) ∧
    (decodeWord (0x5#4 ++ x ++ y ++ n) = .ok (.seVxVy x y) ∧
      ∃ t, exec (.seVxVy x y) s = .next t ∧ t.pc = (if s.getV x = s.getV y then s.pc + 2 else s.pc) ∧ OnlyPc s t) ∧
    (decodeWord (0x9#4 ++ x ++ y ++ n) = .ok (.sneVxVy x y) ∧
      ∃ t, exec (.sneVxVy x y) s = .next t ∧ t.pc = (if s.getV x ≠ s.getV y then s.pc + 2 else s.pc) ∧ OnlyPc s t)

/-- 41_flow R151, R153, the document's property: "RET after CALL restores PC to the instruction immediately after the
CALL" (PC = A0 + 2 when CALL executes). -/
def Obligations.RetAfterCallReturns : Prop :=
  ∀ (nnn : Addr) (s t : State), s.sp < s.cfg.stackDepth → exec (.callNnn nnn) s = .next t →
    ∃ u, exec .ret t = .next u ∧ u = s

/-! ### Register and ALU (42_alu) -/

/-- 42_alu R180, whole: LD Vx,kk. -/
def Obligations.LdVxKkLoadsTheByte : Prop :=
  ∀ (x : Nibble) (kk : Byte) (s : State),
    decodeWord (0x6#4 ++ x ++ kk) = .ok (.ldVxKk x kk) ∧
    ∃ t, exec (.ldVxKk x kk) s = .next t ∧ t.getV x = kk ∧ (∀ j, j ≠ x → t.getV j = s.getV j) ∧ OnlyV s t

/-- 42_alu R181, R182 (opcodes: log 13): ADD Vx,kk wraps and writes no flag; LD Vx,Vy copies. -/
def Obligations.AddVxKkAndLdVxVyWriteOneRegister : Prop :=
  ∀ (x y : Nibble) (kk : Byte) (s : State),
    (decodeWord (0x7#4 ++ x ++ kk) = .ok (.addVxKk x kk) ∧
      ∃ t, exec (.addVxKk x kk) s = .next t ∧ (t.getV x).toNat = ((s.getV x).toNat + kk.toNat) % 256 ∧
        (∀ j, j ≠ x → t.getV j = s.getV j) ∧ OnlyV s t) ∧
    (decodeWord (0x8#4 ++ x ++ y ++ 0x0#4) = .ok (.ldVxVy x y) ∧
      ∃ t, exec (.ldVxVy x y) s = .next t ∧ t.getV x = s.getV y ∧ (∀ j, j ≠ x → t.getV j = s.getV j) ∧ OnlyV s t)

/-- 42_alu R183, R184, R185 (opcodes: log 13; VF unchanged: D24, log 28). -/
def Obligations.BitwiseOperationsCombineBitByBit : Prop :=
  ∀ (x y : Nibble) (s : State),
    (decodeWord (0x8#4 ++ x ++ y ++ 0x1#4) = .ok (.orVxVy x y) ∧
      ∃ t, exec (.orVxVy x y) s = .next t ∧
        (∀ b, (t.getV x).getLsbD b = ((s.getV x).getLsbD b || (s.getV y).getLsbD b)) ∧
        (∀ j, j ≠ x → t.getV j = s.getV j) ∧ OnlyV s t) ∧
    (decodeWord (0x8#4 ++ x ++ y ++ 0x2#4) = .ok (.andVxVy x y) ∧
      ∃ t, exec (.andVxVy x y) s = .next t ∧
        (∀ b, (t.getV x).getLsbD b = ((s.getV x).getLsbD b && (s.getV y).getLsbD b)) ∧
        (∀ j, j ≠ x → t.getV j = s.getV j) ∧ OnlyV s t) ∧
    (decodeWord (0x8#4 ++ x ++ y ++ 0x3#4) = .ok (.xorVxVy x y) ∧
      ∃ t, exec (.xorVxVy x y) s = .next t ∧
        (∀ b, (t.getV x).getLsbD b = ((s.getV x).getLsbD b ^^ (s.getV y).getLsbD b)) ∧
        (∀ j, j ≠ x → t.getV j = s.getV j) ∧ OnlyV s t)

/-- 42_alu R186 with R192 for x = 0xF (decision D11: log 16; the places of x and y in the word: decision D2, log 13): the
carry survives in VF. -/
def Obligations.AddVxVySetsTheCarry : Prop :=
  ∀ (x y : Nibble) (s : State),
    decodeWord (0x8#4 ++ x ++ y ++ 0x4#4) = .ok (.addVxVy x y) ∧
    ∃ t, exec (.addVxVy x y) s = .next t ∧
      t.getV 0xF#4 = (if (s.getV x).toNat + (s.getV y).toNat > 255 then 1 else 0) ∧
      (x ≠ 0xF#4 → (t.getV x).toNat = ((s.getV x).toNat + (s.getV y).toNat) % 256) ∧
      (∀ j, j ≠ x → j ≠ 0xF#4 → t.getV j = s.getV j) ∧ OnlyV s t

/-- 42_alu R187, R189 with R192 for x = 0xF (opcodes: log 13; decision D11: log 16): the result survives in VF. -/
def Obligations.SubAndSubnSetTheInvertedBorrow : Prop :=
  ∀ (x y : Nibble) (s : State),
    (decodeWord (0x8#4 ++ x ++ y ++ 0x5#4) = .ok (.subVxVy x y) ∧
      ∃ t, exec (.subVxVy x y) s = .next t ∧
        (t.getV x).toNat = ((s.getV x).toNat + 256 - (s.getV y).toNat) % 256 ∧
        (x ≠ 0xF#4 → t.getV 0xF#4 = (if (s.getV x).toNat ≥ (s.getV y).toNat then 1 else 0)) ∧
        (∀ j, j ≠ x → j ≠ 0xF#4 → t.getV j = s.getV j) ∧ OnlyV s t) ∧
    (decodeWord (0x8#4 ++ x ++ y ++ 0x7#4) = .ok (.subnVxVy x y) ∧
      ∃ t, exec (.subnVxVy x y) s = .next t ∧
        (t.getV x).toNat = ((s.getV y).toNat + 256 - (s.getV x).toNat) % 256 ∧
        (x ≠ 0xF#4 → t.getV 0xF#4 = (if (s.getV y).toNat ≥ (s.getV x).toNat then 1 else 0)) ∧
        (∀ j, j ≠ x → j ≠ 0xF#4 → t.getV j = s.getV j) ∧ OnlyV s t)

/-- 42_alu R188, R190 with R192 for x = 0xF (opcodes: log 13; decision D11: log 16): Vy is shifted, and the result survives
in VF. -/
def Obligations.ShiftsMoveVyByOne : Prop :=
  ∀ (x y : Nibble) (s : State),
    (decodeWord (0x8#4 ++ x ++ y ++ 0x6#4) = .ok (.shrVxVy x y) ∧
      ∃ t, exec (.shrVxVy x y) s = .next t ∧
        (t.getV x).toNat = (s.getV y).toNat / 2 ∧
        (x ≠ 0xF#4 → (t.getV 0xF#4).toNat = (s.getV y).toNat % 2) ∧
        (∀ j, j ≠ x → j ≠ 0xF#4 → t.getV j = s.getV j) ∧ OnlyV s t) ∧
    (decodeWord (0x8#4 ++ x ++ y ++ 0xE#4) = .ok (.shlVxVy x y) ∧
      ∃ t, exec (.shlVxVy x y) s = .next t ∧
        (t.getV x).toNat = (s.getV y).toNat * 2 % 256 ∧
        (x ≠ 0xF#4 → (t.getV 0xF#4).toNat = (s.getV y).toNat / 128) ∧
        (∀ j, j ≠ x → j ≠ 0xF#4 → t.getV j = s.getV j) ∧ OnlyV s t)

/-- 42_alu R191 (opcode: log 13; decision D17: log 3): RND masks whatever byte the host answers, and takes one answer; a
listed answer is the one taken. -/
def Obligations.RndMasksTheHostsByte : Prop :=
  ∀ (x : Nibble) (kk r : Byte) (s t : State), sampleRnd s = (r, t) →
    decodeWord (0xC#4 ++ x ++ kk) = .ok (.rndVxKk x kk) ∧
    (∀ b rest, s.host.rnd = b :: rest → r = b) ∧
    ∃ u, exec (.rndVxKk x kk) s = .next u ∧ (∀ b, (u.getV x).getLsbD b = (r.getLsbD b && kk.getLsbD b)) ∧
      (∀ j, j ≠ x → u.getV j = s.getV j) ∧ u = { s with v := u.v, host := t.host } ∧ SameMemory s u

/-- 10_state R22 (decision D24: log 28): the six flag writers write 0 or 1 when VF is not their destination, and every
other instruction that does not name VF as its destination leaves VF as it was. -/
def Obligations.OnlySixInstructionsWriteTheFlag : Prop :=
  ∀ (x y n : Nibble) (kk : Byte) (s t : State), x ≠ 0xF#4 →
    (∀ ins ∈ [Instr.addVxVy x y, .subVxVy x y, .subnVxVy x y, .shrVxVy x y, .shlVxVy x y, .drwVxVyN x y n],
      exec ins s = .next t → t.run ≠ .halted → s.run ≠ .halted → t.getV 0xF#4 = 0 ∨ t.getV 0xF#4 = 1) ∧
    (∀ ins ∈ [Instr.ldVxKk x kk, .addVxKk x kk, .ldVxVy x y, .orVxVy x y, .andVxVy x y, .xorVxVy x y, .rndVxKk x kk,
        .ldVxDt x, .ldVxMemI x], exec ins s = .next t → t.getV 0xF#4 = s.getV 0xF#4) ∧
    (∀ (z : Nibble) (nnn : Addr), ∀ ins ∈ [Instr.cls, .ret, .sysNnn nnn, .jpNnn nnn, .callNnn nnn, .seVxKk z kk,
        .sneVxKk z kk, .seVxVy z y, .sneVxVy z y, .ldINnn nnn, .jpV0Nnn nnn, .skpVx z, .sknpVx z, .ldVxK z, .ldDtVx z,
        .ldStVx z, .addIVx z, .ldFVx z, .ldBVx z, .ldMemIVx z], exec ins s = .next t → t.v = s.v)

/-! ### Address register and memory (43_index_memory) -/

/-- 43_index_memory R210, whole: LD I,nnn. -/
def Obligations.LdINnnLoadsTheAddress : Prop :=
  ∀ (nnn : Addr) (s : State),
    decodeWord (0xA#4 ++ nnn) = .ok (.ldINnn nnn) ∧
    ∃ t, exec (.ldINnn nnn) s = .next t ∧ t.i.toNat = nnn.toNat ∧ t.i.toNat < 4096 ∧ OnlyI s t

/-- 43_index_memory R211, R212 (opcodes: log 13; wrap: D7, log 17; all of Vx: D13, log 18). -/
def Obligations.AddIAndLdFComputeI : Prop :=
  ∀ (x : Nibble) (s : State),
    (decodeWord (0xF#4 ++ x ++ 0x1E#8) = .ok (.addIVx x) ∧
      ∃ t, exec (.addIVx x) s = .next t ∧ t.i.toNat = (s.i.toNat + (s.getV x).toNat) % 65536 ∧ OnlyI s t) ∧
    (decodeWord (0xF#4 ++ x ++ 0x29#8) = .ok (.ldFVx x) ∧
      ∃ t, exec (.ldFVx x) s = .next t ∧ t.i.toNat = 5 * (s.getV x).toNat ∧ OnlyI s t)

/-- 43_index_memory R213 (opcode: log 13; bounds: D5, log 22; fault entry, 60_exceptions R270, R279: D18, D19, log 23): three decimal digits at I, or MemoryOutOfRange and no byte
stored. -/
def Obligations.LdBStoresThreeDigits : Prop :=
  ∀ (x : Nibble) (s : State),
    decodeWord (0xF#4 ++ x ++ 0x33#8) = .ok (.ldBVx x) ∧
    (s.mem.wf = true → s.i.toNat + 2 ≤ 4095 → ∃ t, exec (.ldBVx x) s = .next t ∧
      (t.readByte (addrI s)).toNat = (s.getV x).toNat / 100 ∧
      (t.readByte (addrI s + 1)).toNat = (s.getV x).toNat / 10 % 10 ∧
      (t.readByte (addrI s + 2)).toNat = (s.getV x).toNat % 10 ∧
      SameMemoryOutside (addrI s) 3 s t ∧ t = { s with mem := t.mem }) ∧
    (s.i.toNat + 2 > 4095 → ∃ t, exec (.ldBVx x) s = .next t ∧
      FaultedWith .memoryOutOfRange (0xF#4 ++ x ++ 0x33#8) s t)

/-- 43_index_memory R214 (bounds: D5, log 22; fault entry, 60_exceptions R270, R279: D18, D19, log 23): V0..Vx stored from I on and I advanced, or MemoryOutOfRange and nothing. -/
def Obligations.LdMemIStoresTheRegisters : Prop :=
  ∀ (x : Nibble) (s : State),
    decodeWord (0xF#4 ++ x ++ 0x55#8) = .ok (.ldMemIVx x) ∧
    (s.mem.wf = true → s.i.toNat + x.toNat ≤ 4095 → ∃ t, exec (.ldMemIVx x) s = .next t ∧
      (∀ k : Nibble, k.toNat ≤ x.toNat → t.readByte (addrI s + k.toNat) = s.getV k) ∧
      t.i.toNat = s.i.toNat + x.toNat + 1 ∧
      SameMemoryOutside (addrI s) (x.toNat + 1) s t ∧ t = { s with mem := t.mem, i := t.i }) ∧
    (s.i.toNat + x.toNat > 4095 → ∃ t, exec (.ldMemIVx x) s = .next t ∧
      FaultedWith .memoryOutOfRange (0xF#4 ++ x ++ 0x55#8) s t)

/-- 43_index_memory R215 (opcode: log 13; bounds: D5, log 22; fault entry, 60_exceptions R270, R279: D18, D19, log 23): V0..Vx loaded from I on and I advanced, or MemoryOutOfRange
and nothing. -/
def Obligations.LdVxMemILoadsTheRegisters : Prop :=
  ∀ (x : Nibble) (s : State),
    decodeWord (0xF#4 ++ x ++ 0x65#8) = .ok (.ldVxMemI x) ∧
    (s.i.toNat + x.toNat ≤ 4095 → ∃ t, exec (.ldVxMemI x) s = .next t ∧
      (∀ k : Nibble, t.getV k = if k.toNat ≤ x.toNat then s.readByte (addrI s + k.toNat) else s.getV k) ∧
      t.i.toNat = s.i.toNat + x.toNat + 1 ∧ t = { s with v := t.v, i := t.i } ∧ SameMemory s t) ∧
    (s.i.toNat + x.toNat > 4095 → ∃ t, exec (.ldVxMemI x) s = .next t ∧
      FaultedWith .memoryOutOfRange (0xF#4 ++ x ++ 0x65#8) s t)

/-- 43_index_memory R215, the document's property with I set again (C16): a store of V0..Vx and a load at the same I give
the registers back, whatever they held in between, and leave I advanced by x + 1. -/
def Obligations.StoreThenLoadRestoresTheRegisters : Prop :=
  ∀ (x : Nibble) (s t : State) (junk : Vector Byte 16), s.mem.wf = true → s.i.toNat + x.toNat ≤ 4095 →
    exec (.ldMemIVx x) s = .next t →
    ∃ u, exec (.ldVxMemI x) { t with i := s.i, v := junk } = .next u ∧
      (∀ k : Nibble, k.toNat ≤ x.toNat → u.getV k = s.getV k) ∧ u.i.toNat = s.i.toNat + x.toNat + 1

/-- The byte at `p` after `n` bytes, `value 0` first, were stored from `a` on over the memory of `s`. -/
def byteAfterStore (a n : Nat) (value : Nat → Byte) (s : State) (p : Nat) : Byte :=
  if a ≤ p ∧ p < a + n then value (p - a) else s.readByte p

/-- 20_memory R73: a store by LD B or LD [I],Vx is seen by every later fetch until MEM is written again: at every PC, whichever
of the two fetched bytes the store covers, in every state `u` that holds the memory the store left. The last clause is the very
next instruction, overwritten. -/
def Obligations.StoreIsSeenByTheNextFetch : Prop :=
  ∀ (x : Nibble) (s t u : State), s.mem.wf = true → u.mem = t.mem → u.pc.toNat ≤ 4094 →
    (s.i.toNat + 2 ≤ 4095 → exec (.ldBVx x) s = .next t →
      let stored := byteAfterStore (addrI s) 3 (fun k => BitVec.ofNat 8 ((s.getV x).toNat / 10 ^ (2 - k) % 10)) s
      fetch u = some (stored u.pc.toNat ++ stored (u.pc.toNat + 1))) ∧
    (s.i.toNat + x.toNat ≤ 4095 → exec (.ldMemIVx x) s = .next t →
      let stored := byteAfterStore (addrI s) (x.toNat + 1) (fun k => s.getV (BitVec.ofNat 4 k)) s
      fetch u = some (stored u.pc.toNat ++ stored (u.pc.toNat + 1))) ∧
    (1 ≤ x.toNat → s.i = s.pc → s.i.toNat + x.toNat ≤ 4095 → exec (.ldMemIVx x) s = .next t →
      fetch t = some (s.getV 0x0#4 ++ s.getV 0x1#4))

/-- 20_memory R74, whole: the stores leave the return addresses and the pixels; CALL, RET, CLS and DRW leave MEM. -/
def Obligations.StackAndDisplayAreNotMemory : Prop :=
  ∀ (x y n : Nibble) (nnn : Addr) (s t : State),
    (∀ ins ∈ [Instr.ldBVx x, .ldMemIVx x], exec ins s = .next t → t.stack = s.stack ∧ t.fb = s.fb) ∧
    (∀ ins ∈ [Instr.callNnn nnn, .ret, .cls, .drwVxVyN x y n], exec ins s = .next t → SameMemory s t)

/-- 20_memory R60: an instruction other than DRW, LD B, LD [I],Vx and LD Vx,[I] neither reads nor writes MEM; DRW and
LD Vx,[I] do not write it. -/
def Obligations.OnlyFourInstructionsTouchMemory : Prop :=
  (∀ (ins : Instr) (s : State) (m : Memory),
    (∀ x y n, ins ≠ .drwVxVyN x y n) → (∀ x, ins ≠ .ldBVx x) → (∀ x, ins ≠ .ldMemIVx x) → (∀ x, ins ≠ .ldVxMemI x) →
    exec ins { s with mem := m } = onNext (fun t => { t with mem := m }) (exec ins s)) ∧
  (∀ (x y n : Nibble) (s t : State),
    (exec (.drwVxVyN x y n) s = .next t → t.mem = s.mem) ∧ (exec (.ldVxMemI x) s = .next t → t.mem = s.mem))

/-! ### Display (44_display) -/

/-- 44_display R230, whole: CLS turns every pixel off, changes nothing else, and FB_UPDATED is raised in the iteration
that runs it (decision D28: log 27). -/
def Obligations.ClsTurnsEveryPixelOff : Prop :=
  decodeWord 0x00E0#16 = .ok .cls ∧
  (∀ s : State, ∃ t, exec .cls s = .next t ∧ (∀ r c, pixel t.fb r c = false) ∧ t = { s with fb := t.fb } ∧ SameMemory s t) ∧
  (∀ s : State, dispatched s = some .cls → fbUpdated s = true)

/-- The pixel (r, c) is one the sprite toggles: the mask S of 44_display R231 (a). -/
def spriteCovers (s : State) (x y n : Nibble) (r : Fin 32) (c : Fin 64) : Prop :=
  ∃ row col, row < n.toNat ∧ col < 8 ∧ (s.readByte (s.i.toNat + row)).getLsbD (7 - col) = true ∧
    r.val = ((s.getV y).toNat + row) % 32 ∧ c.val = ((s.getV x).toNat + col) % 64

/-- 44_display R231 with its corner case (a) (opcode: log 13; n = 0: D12, log 19; bounds: D5, log 22;
fault entry, 60_exceptions R270, R279: D18, D19, log 23): DRW is the
exclusive-or with the sprite's mask, VF tells whether it met a pixel that was on, and an access out of range changes
neither. -/
def Obligations.DrwXorsTheSpriteMask : Prop :=
  ∀ (x y n : Nibble) (s : State),
    decodeWord (0xD#4 ++ x ++ y ++ n) = .ok (.drwVxVyN x y n) ∧
    (n.toNat = 0 ∨ s.i.toNat + n.toNat - 1 ≤ 4095 → ∃ t, exec (.drwVxVyN x y n) s = .next t ∧
      (∀ r c, spriteCovers s x y n r c → pixel t.fb r c = !pixel s.fb r c) ∧
      (∀ r c, ¬ spriteCovers s x y n r c → pixel t.fb r c = pixel s.fb r c) ∧
      ((∃ r c, spriteCovers s x y n r c ∧ pixel s.fb r c = true) → t.getV 0xF#4 = 1) ∧
      ((¬ ∃ r c, spriteCovers s x y n r c ∧ pixel s.fb r c = true) → t.getV 0xF#4 = 0) ∧
      (∀ j, j ≠ 0xF#4 → t.getV j = s.getV j) ∧ t = { s with v := t.v, fb := t.fb } ∧ SameMemory s t) ∧
    (n.toNat ≥ 1 ∧ s.i.toNat + n.toNat - 1 > 4095 → ∃ t, exec (.drwVxVyN x y n) s = .next t ∧
      FaultedWith .memoryOutOfRange (0xD#4 ++ x ++ y ++ n) s t)

/-- 44_display R233 (1), (2): a second equal DRW restores the display, and reports a collision exactly when the sprite
covers a pixel that was off before the first. -/
def Obligations.DrawingTwiceRestoresTheDisplay : Prop :=
  ∀ (x y n : Nibble) (s t u : State), x ≠ 0xF#4 → y ≠ 0xF#4 → (n.toNat = 0 ∨ s.i.toNat + n.toNat - 1 ≤ 4095) →
    exec (.drwVxVyN x y n) s = .next t → exec (.drwVxVyN x y n) t = .next u →
    u.fb = s.fb ∧ (u.getV 0xF#4 = 1 ↔ ∃ r c, spriteCovers s x y n r c ∧ pixel s.fb r c = false)

/-- 44_display R232 (decision D28: log 27): FB_UPDATED is raised exactly by an iteration that ran CLS or a DRW that did not
fault. With it the level outputs of 10_state R33 (signals: decision D20; orientation: log 27) and the cause codes of
60_exceptions R270 (decision D18: log 23): what each shows of the state, and, where the fault record fits RUN (10_state R30),
CAUSE_OUT is nonzero exactly when HALTED is high. -/
def Obligations.FbUpdatedAfterClsAndUnfaultedDrw : Prop :=
  ∀ s : State,
    (fbUpdated s = true ↔
      dispatched s = some .cls ∨
        ∃ x y n, dispatched s = some (.drwVxVyN x y n) ∧ expectedFault (.drwVxVyN x y n) s = .noFault) ∧
    (∀ r c, pixel (outputs s).fbOut r c = pixel s.fb r c) ∧
    ((outputs s).soundOn = true ↔ s.st.toNat ≠ 0) ∧
    ((outputs s).waiting = true ↔ s.run = .waitingForKey) ∧
    ((outputs s).halted = true ↔ s.run = .halted) ∧
    ((outputs s).stopped = true ↔ s.run = .stopped) ∧
    (outputs s).faultAddrOut = s.faultAddr ∧ (outputs s).faultWordOut = s.faultWord ∧
    (∀ p ∈ [(Cause.noFault, 0), (.unimplementedOpcode, 1), (.stackUnderflow, 2), (.stackOverflow, 3), (.invalidKeyIndex, 4),
        (.memoryOutOfRange, 5)], s.cause = p.1 → (outputs s).causeOut.toNat = p.2) ∧
    (s.recordFits →
      ((outputs s).halted = true ↔ (outputs s).causeOut.toNat ≠ 0) ∧
      ((outputs s).halted = false → (outputs s).faultAddrOut = 0 ∧ (outputs s).faultWordOut = 0))

/-- 10_state R27: an instruction other than CLS and DRW neither reads nor changes FB. -/
def Obligations.OnlyClsAndDrwTouchTheDisplay : Prop :=
  ∀ (ins : Instr) (s : State) (f : Framebuffer), ins ≠ .cls → (∀ x y n, ins ≠ .drwVxVyN x y n) →
    exec ins { s with fb := f } = onNext (fun t => { t with fb := f }) (exec ins s)

/-! ### Keypad and timers (45_keypad_timers) -/

/-- 45_keypad_timers R250, R251 (opcodes: log 13; decision D16: log 26; free values: log 3;
fault entry, 60_exceptions R270, R279: D18, D19, log 23): whatever levels the host
presents, SKP and SKNP test the key numbered Vx, and a number above 0xF is InvalidKeyIndex. -/
def Obligations.KeySkipsTestTheHostsLevel : Prop :=
  ∀ (x : Nibble) (s t : State) (levels : BitVec 16), sampleKeys s = (levels, t) →
    decodeWord (0xE#4 ++ x ++ 0x9E#8) = .ok (.skpVx x) ∧ decodeWord (0xE#4 ++ x ++ 0xA1#8) = .ok (.sknpVx x) ∧
    (∀ l rest, s.host.keys = l :: rest → levels = l) ∧
    ((s.getV x).toNat ≤ 0xF →
      (∃ u, exec (.skpVx x) s = .next u ∧
        u.pc = (if levels.getLsbD (s.getV x).toNat = true then s.pc + 2 else s.pc) ∧
        u = { s with pc := u.pc, host := t.host } ∧ SameMemory s u) ∧
      (∃ u, exec (.sknpVx x) s = .next u ∧
        u.pc = (if levels.getLsbD (s.getV x).toNat = false then s.pc + 2 else s.pc) ∧
        u = { s with pc := u.pc, host := t.host } ∧ SameMemory s u)) ∧
    ((s.getV x).toNat > 0xF →
      (∃ u, exec (.skpVx x) s = .next u ∧ FaultedWith .invalidKeyIndex (0xE#4 ++ x ++ 0x9E#8) s u) ∧
      (∃ u, exec (.sknpVx x) s = .next u ∧ FaultedWith .invalidKeyIndex (0xE#4 ++ x ++ 0xA1#8) s u))

/-- 45_keypad_timers R252, R254, R255 (opcodes: log 13): the three moves between a register and a timer. -/
def Obligations.TimerMovesCopyAByte : Prop :=
  ∀ (x : Nibble) (s : State),
    (decodeWord (0xF#4 ++ x ++ 0x07#8) = .ok (.ldVxDt x) ∧
      ∃ t, exec (.ldVxDt x) s = .next t ∧ t.getV x = s.dt ∧ (∀ j, j ≠ x → t.getV j = s.getV j) ∧ OnlyV s t) ∧
    (decodeWord (0xF#4 ++ x ++ 0x15#8) = .ok (.ldDtVx x) ∧
      ∃ t, exec (.ldDtVx x) s = .next t ∧ t = { s with dt := s.getV x } ∧ SameMemory s t) ∧
    (decodeWord (0xF#4 ++ x ++ 0x18#8) = .ok (.ldStVx x) ∧
      ∃ t, exec (.ldStVx x) s = .next t ∧ t = { s with st := s.getV x } ∧ SameMemory s t)

/-- 45_keypad_timers R252, R254, R255 and 70_reset_and_hazards R317, whole iterations with TIMER_TICK = per_cycle: the tick
follows the instruction (decisions D9, D10: log 24). -/
def Obligations.TimerInstructionsAreTickedInTheirOwnIteration : Prop :=
  ∀ (s : State) (x : Nibble), s.cfg.timerTick = .perCycle →
    (dispatched s = some (.ldDtVx x) → ∃ t, step s = .next t ∧ t.dt.toNat = (s.getV x).toNat - 1) ∧
    (dispatched s = some (.ldStVx x) → ∃ t, step s = .next t ∧ t.st.toNat = (s.getV x).toNat - 1) ∧
    (dispatched s = some (.ldVxDt x) → ∃ t, step s = .next t ∧ t.getV x = s.dt ∧ t.dt.toNat = s.dt.toNat - 1)

/-- 45_keypad_timers R253 (opcode: log 13): LD Vx,K only enters WaitingForKey with WAIT_REG = x. -/
def Obligations.LdVxKEntersTheWait : Prop :=
  ∀ (x : Nibble) (s : State),
    decodeWord (0xF#4 ++ x ++ 0x0A#8) = .ok (.ldVxK x) ∧
    ∃ t, exec (.ldVxK x) s = .next t ∧ t = { s with run := .waitingForKey, waitReg := x } ∧ SameMemory s t

/-- 10_state R25: ST is "read by no instruction": two states that differ in ST alone stay so, but for LD ST,Vx, which
overwrites it. -/
def Obligations.SoundTimerIsReadByNoInstruction : Prop :=
  ∀ (ins : Instr) (s : State) (b : Byte),
    ((∀ x, ins ≠ .ldStVx x) → exec ins { s with st := b } = onNext (fun t => { t with st := b }) (exec ins s)) ∧
    (∀ x, ins = .ldStVx x → exec ins { s with st := b } = exec ins s)

/-! ### Call stack, parameters, reset, invariants -/

/-- 10_state R26: "Only CALL pushes and only RET pops"; no other instruction reads or changes the stack. -/
def Obligations.OnlyCallAndRetTouchTheStack : Prop :=
  (∀ (ins : Instr) (s : State) (l : List Word), (∀ nnn, ins ≠ .callNnn nnn) → ins ≠ .ret →
    exec ins { s with stack := l } = onNext (fun t => { t with stack := l }) (exec ins s)) ∧
  (∀ (nnn : Addr) (s t : State), exec (.callNnn nnn) s = .next t → t.stack = s.stack ∨ t.stack = s.pc :: s.stack) ∧
  (∀ s t : State, exec .ret s = .next t → t.stack = s.stack ∨ s.stack = t.pc :: t.stack)

/-- 00_scope R5, 10_state R34: the parameters are not fields a step changes (log 5). -/
def Obligations.ParametersNeverChange : Prop := ∀ s t : State, step s = .next t → t.cfg = s.cfg

/-- 10_state R36, 70_reset_and_hazards R310, R311 (zero values: the spec's decisions D14, D27, log 6, log 8; record: D18;
WAIT_REG, the host and the parameters: log 4, log 5, log 7): RESET with legal images, and the two loader errors, which are
preconditions of reset (decision D26). Where both images are illegal the spec gives no order: that the font's error is answered
is the model's choice (log 31). -/
def Obligations.ResetLeavesTheTableOfValues : Prop :=
  ∀ (font rom : List Byte) (cfg : Config) (host : Inputs),
    (font.length = 80 → rom.length ≤ 3584 → ∃ s, State.resetWith font rom cfg host = .ok s ∧
      s.pc = 0x200#16 ∧ (∀ r c, pixel s.fb r c = false) ∧ s.run = .running ∧
      (∀ a, s.readByte a = if a < 80 then font.getD a 0
        else if 0x200 ≤ a ∧ a < 0x200 + rom.length then rom.getD (a - 0x200) 0 else 0) ∧
      (∀ j, s.getV j = 0) ∧ s.i = 0 ∧ s.dt = 0 ∧ s.st = 0 ∧ s.sp = 0 ∧
      s.cause = .noFault ∧ s.faultAddr = 0 ∧ s.faultWord = 0 ∧ s.cfg = cfg ∧ s.host = host) ∧
    (font.length ≠ 80 → State.resetWith font rom cfg host = .error .fontLoadError) ∧
    (font.length = 80 → rom.length > 3584 → State.resetWith font rom cfg host = .error .romLoadError)

/-- The model's reset state meets the invariant (log 4 to log 8 for its chosen values), and is RESET with the default
images. -/
def Obligations.ResetStateMeetsTheInvariant : Prop :=
  State.reset.Inv ∧ State.resetWith defaultFont [] Config.default Inputs.silent = .ok State.reset

/-- The model's canonical memory is kept by every step, from every state (20_memory R67, R68; log 8). -/
def Obligations.StepsKeepMemoryCanonical : Prop :=
  ∀ s t : State, s.mem.wf = true → step s = .next t → t.mem.wf = true

/-- 10_state R24, 41_flow R151 (jump targets not masked: D30, log 20; the fetch bound: D5, log 22): PC never wraps: it stays at
most 0x10FE and every saved PC at most 4096. -/
def Obligations.StepsKeepThePcInRange : Prop :=
  ∀ s t : State, s.pcFits → step s = .next t → t.pcFits

/-- 10_state R26 and R30 (decisions D6, D18, D19: log 5, log 23): the stack stays within its depth, and the fault record stays zero until
Halted. -/
def Obligations.StepsKeepStackAndRecord : Prop :=
  ∀ s t : State, s.stackFits → s.recordFits → step s = .next t → t.stackFits ∧ t.recordFits

/-- Every state of every run, RESET at any time included, meets the invariant. Of its parts PC's range follows 10_state R24
(D30, D5: log 20, log 22), the stack's depth R26 (D6: log 5), the fault record R30 (D18, D19: log 23); the canonical memory is
the model's (log 8), and so is a RESET that keeps the parameters and the host's answers (log 10). -/
def Obligations.ReachableStatesMeetTheInvariant : Prop := ∀ s : State, Reachable s → s.Inv
end

