-- ==== Sys2Proof/Laws/Decode.lean ====
section
/-! SUPPORT. The fields of a word put together from fields (30_encoding R91), the bytes of a word, and the decoder's
one refusal. -/

namespace Sys2Proof

theorem fieldOp_addr (op : Nibble) (nnn : Addr) : fieldOp (op ++ nnn) = op := by
  apply BitVec.eq_of_getLsbD_eq
  intro i hi
  simp only [fieldOp, BitVec.getLsbD_extractLsb', BitVec.getLsbD_append]
  interval_cases i <;> rfl

theorem fieldNnn_addr (op : Nibble) (nnn : Addr) : fieldNnn (op ++ nnn) = nnn := by
  apply BitVec.eq_of_getLsbD_eq
  intro i hi
  simp only [fieldNnn, BitVec.getLsbD_extractLsb', BitVec.getLsbD_append]
  interval_cases i <;> rfl

theorem fieldOp_regByte (op x : Nibble) (kk : Byte) : fieldOp (op ++ x ++ kk) = op := by
  apply BitVec.eq_of_getLsbD_eq
  intro i hi
  simp only [fieldOp, BitVec.getLsbD_extractLsb', BitVec.getLsbD_append]
  interval_cases i <;> rfl

theorem fieldX_regByte (op x : Nibble) (kk : Byte) : fieldX (op ++ x ++ kk) = x := by
  apply BitVec.eq_of_getLsbD_eq
  intro i hi
  simp only [fieldX, BitVec.getLsbD_extractLsb', BitVec.getLsbD_append]
  interval_cases i <;> rfl

theorem fieldKk_regByte (op x : Nibble) (kk : Byte) : fieldKk (op ++ x ++ kk) = kk := by
  apply BitVec.eq_of_getLsbD_eq
  intro i hi
  simp only [fieldKk, BitVec.getLsbD_extractLsb', BitVec.getLsbD_append]
  interval_cases i <;> rfl

theorem fieldOp_regReg (op x y n : Nibble) : fieldOp (op ++ x ++ y ++ n) = op := by
  apply BitVec.eq_of_getLsbD_eq
  intro i hi
  simp only [fieldOp, BitVec.getLsbD_extractLsb', BitVec.getLsbD_append]
  interval_cases i <;> rfl

theorem fieldX_regReg (op x y n : Nibble) : fieldX (op ++ x ++ y ++ n) = x := by
  apply BitVec.eq_of_getLsbD_eq
  intro i hi
  simp only [fieldX, BitVec.getLsbD_extractLsb', BitVec.getLsbD_append]
  interval_cases i <;> rfl

theorem fieldY_regReg (op x y n : Nibble) : fieldY (op ++ x ++ y ++ n) = y := by
  apply BitVec.eq_of_getLsbD_eq
  intro i hi
  simp only [fieldY, BitVec.getLsbD_extractLsb', BitVec.getLsbD_append]
  interval_cases i <;> rfl

theorem fieldN_regReg (op x y n : Nibble) : fieldN (op ++ x ++ y ++ n) = n := by
  apply BitVec.eq_of_getLsbD_eq
  intro i hi
  simp only [fieldN, BitVec.getLsbD_extractLsb', BitVec.getLsbD_append]
  interval_cases i <;> rfl

/-- Every word is its four nibbles (30_encoding R91). -/
theorem word_fields (w : Word) : fieldOp w ++ fieldX w ++ fieldY w ++ fieldN w = w := by
  apply BitVec.eq_of_getLsbD_eq
  intro i hi
  simp only [fieldOp, fieldX, fieldY, fieldN, BitVec.getLsbD_extractLsb', BitVec.getLsbD_append]
  interval_cases i <;> rfl

theorem joinBytes_bytes (w : Word) : joinBytes (highByte w) (lowByte w) = w := by
  apply BitVec.eq_of_getLsbD_eq
  intro i hi
  simp only [joinBytes, highByte, lowByte, BitVec.getLsbD_extractLsb', BitVec.getLsbD_append]
  interval_cases i <;> rfl

theorem highByte_joinBytes (a b : Byte) : highByte (joinBytes a b) = a := by
  apply BitVec.eq_of_getLsbD_eq
  intro i hi
  simp only [joinBytes, highByte, BitVec.getLsbD_extractLsb', BitVec.getLsbD_append]
  interval_cases i <;> rfl

theorem lowByte_joinBytes (a b : Byte) : lowByte (joinBytes a b) = b := by
  apply BitVec.eq_of_getLsbD_eq
  intro i hi
  simp only [joinBytes, lowByte, BitVec.getLsbD_extractLsb', BitVec.getLsbD_append]
  interval_cases i <;> rfl

/-- Decoding a word's bytes is decoding the word. -/
theorem decodeBytes_word (w : Word) (rest : List Byte) :
    decodeBytes (highByte w :: lowByte w :: rest) = (decodeWord w).map (fun ins => (ins, rest)) := by
  simp only [decodeBytes, joinBytes_bytes]
  cases decodeWord w <;> rfl

theorem error_of_ite_ok {c : Prop} [Decidable c] {a : Instr} {r : Except DecodeError Instr} {e : DecodeError}
    (h : (if c then .ok a else r) = .error e) : r = .error e := by
  split at h
  · cases h
  · exact h

theorem decodeFamily8_error {w : Word} {e : DecodeError} (h : decodeFamily8 w = .error e) : e = .unimplemented w := by
  unfold decodeFamily8 at h
  iterate 9 replace h := error_of_ite_ok h
  cases h
  rfl

theorem decodeFamilyE_error {w : Word} {e : DecodeError} (h : decodeFamilyE w = .error e) : e = .unimplemented w := by
  unfold decodeFamilyE at h
  iterate 2 replace h := error_of_ite_ok h
  cases h
  rfl

theorem decodeFamilyF_error {w : Word} {e : DecodeError} (h : decodeFamilyF w = .error e) : e = .unimplemented w := by
  unfold decodeFamilyF at h
  iterate 9 replace h := error_of_ite_ok h
  cases h
  rfl

/-- The decoder's one verdict on a word that is no instruction (30_encoding R98). -/
theorem decodeWord_error {w : Word} {e : DecodeError} (h : decodeWord w = .error e) : e = .unimplemented w := by
  unfold decodeWord at h
  iterate 10 replace h := error_of_ite_ok h
  split at h
  · exact decodeFamily8_error h
  · iterate 5 replace h := error_of_ite_ok h
    split at h
    · exact decodeFamilyE_error h
    · exact decodeFamilyF_error h

end Sys2Proof
end

