-- ==== Sys2Proof/Laws/State.lean ====
section
/-! SUPPORT. What each update of State leaves in each field, true by rfl. -/

namespace Sys2Proof.Machine

@[simp] theorem State.setV_mem (s : State) (x : Nibble) (b : Byte) : (s.setV x b).mem = s.mem := rfl
@[simp] theorem State.setV_i (s : State) (x : Nibble) (b : Byte) : (s.setV x b).i = s.i := rfl
@[simp] theorem State.setV_pc (s : State) (x : Nibble) (b : Byte) : (s.setV x b).pc = s.pc := rfl
@[simp] theorem State.setV_dt (s : State) (x : Nibble) (b : Byte) : (s.setV x b).dt = s.dt := rfl
@[simp] theorem State.setV_st (s : State) (x : Nibble) (b : Byte) : (s.setV x b).st = s.st := rfl
@[simp] theorem State.setV_stack (s : State) (x : Nibble) (b : Byte) : (s.setV x b).stack = s.stack := rfl
@[simp] theorem State.setV_fb (s : State) (x : Nibble) (b : Byte) : (s.setV x b).fb = s.fb := rfl
@[simp] theorem State.setV_run (s : State) (x : Nibble) (b : Byte) : (s.setV x b).run = s.run := rfl
@[simp] theorem State.setV_cause (s : State) (x : Nibble) (b : Byte) : (s.setV x b).cause = s.cause := rfl
@[simp] theorem State.setV_faultAddr (s : State) (x : Nibble) (b : Byte) : (s.setV x b).faultAddr = s.faultAddr := rfl
@[simp] theorem State.setV_faultWord (s : State) (x : Nibble) (b : Byte) : (s.setV x b).faultWord = s.faultWord := rfl
@[simp] theorem State.setV_waitReg (s : State) (x : Nibble) (b : Byte) : (s.setV x b).waitReg = s.waitReg := rfl
@[simp] theorem State.setV_cfg (s : State) (x : Nibble) (b : Byte) : (s.setV x b).cfg = s.cfg := rfl
@[simp] theorem State.setV_host (s : State) (x : Nibble) (b : Byte) : (s.setV x b).host = s.host := rfl

@[simp] theorem State.setI_mem (s : State) (a : Word) : (s.setI a).mem = s.mem := rfl
@[simp] theorem State.setI_v (s : State) (a : Word) : (s.setI a).v = s.v := rfl
@[simp] theorem State.setI_i (s : State) (a : Word) : (s.setI a).i = a := rfl
@[simp] theorem State.setI_pc (s : State) (a : Word) : (s.setI a).pc = s.pc := rfl
@[simp] theorem State.setI_dt (s : State) (a : Word) : (s.setI a).dt = s.dt := rfl
@[simp] theorem State.setI_st (s : State) (a : Word) : (s.setI a).st = s.st := rfl
@[simp] theorem State.setI_stack (s : State) (a : Word) : (s.setI a).stack = s.stack := rfl
@[simp] theorem State.setI_fb (s : State) (a : Word) : (s.setI a).fb = s.fb := rfl
@[simp] theorem State.setI_run (s : State) (a : Word) : (s.setI a).run = s.run := rfl
@[simp] theorem State.setI_cause (s : State) (a : Word) : (s.setI a).cause = s.cause := rfl
@[simp] theorem State.setI_faultAddr (s : State) (a : Word) : (s.setI a).faultAddr = s.faultAddr := rfl
@[simp] theorem State.setI_faultWord (s : State) (a : Word) : (s.setI a).faultWord = s.faultWord := rfl
@[simp] theorem State.setI_waitReg (s : State) (a : Word) : (s.setI a).waitReg = s.waitReg := rfl
@[simp] theorem State.setI_cfg (s : State) (a : Word) : (s.setI a).cfg = s.cfg := rfl
@[simp] theorem State.setI_host (s : State) (a : Word) : (s.setI a).host = s.host := rfl

@[simp] theorem State.setPc_mem (s : State) (a : Word) : (s.setPc a).mem = s.mem := rfl
@[simp] theorem State.setPc_v (s : State) (a : Word) : (s.setPc a).v = s.v := rfl
@[simp] theorem State.setPc_i (s : State) (a : Word) : (s.setPc a).i = s.i := rfl
@[simp] theorem State.setPc_pc (s : State) (a : Word) : (s.setPc a).pc = a := rfl
@[simp] theorem State.setPc_dt (s : State) (a : Word) : (s.setPc a).dt = s.dt := rfl
@[simp] theorem State.setPc_st (s : State) (a : Word) : (s.setPc a).st = s.st := rfl
@[simp] theorem State.setPc_stack (s : State) (a : Word) : (s.setPc a).stack = s.stack := rfl
@[simp] theorem State.setPc_fb (s : State) (a : Word) : (s.setPc a).fb = s.fb := rfl
@[simp] theorem State.setPc_run (s : State) (a : Word) : (s.setPc a).run = s.run := rfl
@[simp] theorem State.setPc_cause (s : State) (a : Word) : (s.setPc a).cause = s.cause := rfl
@[simp] theorem State.setPc_faultAddr (s : State) (a : Word) : (s.setPc a).faultAddr = s.faultAddr := rfl
@[simp] theorem State.setPc_faultWord (s : State) (a : Word) : (s.setPc a).faultWord = s.faultWord := rfl
@[simp] theorem State.setPc_waitReg (s : State) (a : Word) : (s.setPc a).waitReg = s.waitReg := rfl
@[simp] theorem State.setPc_cfg (s : State) (a : Word) : (s.setPc a).cfg = s.cfg := rfl
@[simp] theorem State.setPc_host (s : State) (a : Word) : (s.setPc a).host = s.host := rfl

@[simp] theorem State.setDt_mem (s : State) (b : Byte) : (s.setDt b).mem = s.mem := rfl
@[simp] theorem State.setDt_v (s : State) (b : Byte) : (s.setDt b).v = s.v := rfl
@[simp] theorem State.setDt_i (s : State) (b : Byte) : (s.setDt b).i = s.i := rfl
@[simp] theorem State.setDt_pc (s : State) (b : Byte) : (s.setDt b).pc = s.pc := rfl
@[simp] theorem State.setDt_dt (s : State) (b : Byte) : (s.setDt b).dt = b := rfl
@[simp] theorem State.setDt_st (s : State) (b : Byte) : (s.setDt b).st = s.st := rfl
@[simp] theorem State.setDt_stack (s : State) (b : Byte) : (s.setDt b).stack = s.stack := rfl
@[simp] theorem State.setDt_fb (s : State) (b : Byte) : (s.setDt b).fb = s.fb := rfl
@[simp] theorem State.setDt_run (s : State) (b : Byte) : (s.setDt b).run = s.run := rfl
@[simp] theorem State.setDt_cause (s : State) (b : Byte) : (s.setDt b).cause = s.cause := rfl
@[simp] theorem State.setDt_faultAddr (s : State) (b : Byte) : (s.setDt b).faultAddr = s.faultAddr := rfl
@[simp] theorem State.setDt_faultWord (s : State) (b : Byte) : (s.setDt b).faultWord = s.faultWord := rfl
@[simp] theorem State.setDt_waitReg (s : State) (b : Byte) : (s.setDt b).waitReg = s.waitReg := rfl
@[simp] theorem State.setDt_cfg (s : State) (b : Byte) : (s.setDt b).cfg = s.cfg := rfl
@[simp] theorem State.setDt_host (s : State) (b : Byte) : (s.setDt b).host = s.host := rfl

@[simp] theorem State.setSt_mem (s : State) (b : Byte) : (s.setSt b).mem = s.mem := rfl
@[simp] theorem State.setSt_v (s : State) (b : Byte) : (s.setSt b).v = s.v := rfl
@[simp] theorem State.setSt_i (s : State) (b : Byte) : (s.setSt b).i = s.i := rfl
@[simp] theorem State.setSt_pc (s : State) (b : Byte) : (s.setSt b).pc = s.pc := rfl
@[simp] theorem State.setSt_dt (s : State) (b : Byte) : (s.setSt b).dt = s.dt := rfl
@[simp] theorem State.setSt_st (s : State) (b : Byte) : (s.setSt b).st = b := rfl
@[simp] theorem State.setSt_stack (s : State) (b : Byte) : (s.setSt b).stack = s.stack := rfl
@[simp] theorem State.setSt_fb (s : State) (b : Byte) : (s.setSt b).fb = s.fb := rfl
@[simp] theorem State.setSt_run (s : State) (b : Byte) : (s.setSt b).run = s.run := rfl
@[simp] theorem State.setSt_cause (s : State) (b : Byte) : (s.setSt b).cause = s.cause := rfl
@[simp] theorem State.setSt_faultAddr (s : State) (b : Byte) : (s.setSt b).faultAddr = s.faultAddr := rfl
@[simp] theorem State.setSt_faultWord (s : State) (b : Byte) : (s.setSt b).faultWord = s.faultWord := rfl
@[simp] theorem State.setSt_waitReg (s : State) (b : Byte) : (s.setSt b).waitReg = s.waitReg := rfl
@[simp] theorem State.setSt_cfg (s : State) (b : Byte) : (s.setSt b).cfg = s.cfg := rfl
@[simp] theorem State.setSt_host (s : State) (b : Byte) : (s.setSt b).host = s.host := rfl

@[simp] theorem advancePc_mem (s : State) : (advancePc s).mem = s.mem := rfl
@[simp] theorem advancePc_v (s : State) : (advancePc s).v = s.v := rfl
@[simp] theorem advancePc_i (s : State) : (advancePc s).i = s.i := rfl
@[simp] theorem advancePc_pc (s : State) : (advancePc s).pc = s.pc + 2 := rfl
@[simp] theorem advancePc_dt (s : State) : (advancePc s).dt = s.dt := rfl
@[simp] theorem advancePc_st (s : State) : (advancePc s).st = s.st := rfl
@[simp] theorem advancePc_stack (s : State) : (advancePc s).stack = s.stack := rfl
@[simp] theorem advancePc_fb (s : State) : (advancePc s).fb = s.fb := rfl
@[simp] theorem advancePc_run (s : State) : (advancePc s).run = s.run := rfl
@[simp] theorem advancePc_cause (s : State) : (advancePc s).cause = s.cause := rfl
@[simp] theorem advancePc_faultAddr (s : State) : (advancePc s).faultAddr = s.faultAddr := rfl
@[simp] theorem advancePc_faultWord (s : State) : (advancePc s).faultWord = s.faultWord := rfl
@[simp] theorem advancePc_waitReg (s : State) : (advancePc s).waitReg = s.waitReg := rfl
@[simp] theorem advancePc_cfg (s : State) : (advancePc s).cfg = s.cfg := rfl
@[simp] theorem advancePc_host (s : State) : (advancePc s).host = s.host := rfl

@[simp] theorem timerTick_mem (s : State) : (timerTick s).mem = s.mem := rfl
@[simp] theorem timerTick_v (s : State) : (timerTick s).v = s.v := rfl
@[simp] theorem timerTick_i (s : State) : (timerTick s).i = s.i := rfl
@[simp] theorem timerTick_pc (s : State) : (timerTick s).pc = s.pc := rfl
@[simp] theorem timerTick_dt (s : State) : (timerTick s).dt = countDown s.dt := rfl
@[simp] theorem timerTick_st (s : State) : (timerTick s).st = countDown s.st := rfl
@[simp] theorem timerTick_stack (s : State) : (timerTick s).stack = s.stack := rfl
@[simp] theorem timerTick_fb (s : State) : (timerTick s).fb = s.fb := rfl
@[simp] theorem timerTick_run (s : State) : (timerTick s).run = s.run := rfl
@[simp] theorem timerTick_cause (s : State) : (timerTick s).cause = s.cause := rfl
@[simp] theorem timerTick_faultAddr (s : State) : (timerTick s).faultAddr = s.faultAddr := rfl
@[simp] theorem timerTick_faultWord (s : State) : (timerTick s).faultWord = s.faultWord := rfl
@[simp] theorem timerTick_waitReg (s : State) : (timerTick s).waitReg = s.waitReg := rfl
@[simp] theorem timerTick_cfg (s : State) : (timerTick s).cfg = s.cfg := rfl
@[simp] theorem timerTick_host (s : State) : (timerTick s).host = s.host := rfl

@[simp] theorem enterHalted_mem (c : Cause) (a w : Word) (s : State) : (enterHalted c a w s).mem = s.mem := rfl
@[simp] theorem enterHalted_v (c : Cause) (a w : Word) (s : State) : (enterHalted c a w s).v = s.v := rfl
@[simp] theorem enterHalted_i (c : Cause) (a w : Word) (s : State) : (enterHalted c a w s).i = s.i := rfl
@[simp] theorem enterHalted_pc (c : Cause) (a w : Word) (s : State) : (enterHalted c a w s).pc = s.pc := rfl
@[simp] theorem enterHalted_dt (c : Cause) (a w : Word) (s : State) : (enterHalted c a w s).dt = s.dt := rfl
@[simp] theorem enterHalted_st (c : Cause) (a w : Word) (s : State) : (enterHalted c a w s).st = s.st := rfl
@[simp] theorem enterHalted_stack (c : Cause) (a w : Word) (s : State) : (enterHalted c a w s).stack = s.stack := rfl
@[simp] theorem enterHalted_fb (c : Cause) (a w : Word) (s : State) : (enterHalted c a w s).fb = s.fb := rfl
@[simp] theorem enterHalted_run (c : Cause) (a w : Word) (s : State) : (enterHalted c a w s).run = .halted := rfl
@[simp] theorem enterHalted_cause (c : Cause) (a w : Word) (s : State) : (enterHalted c a w s).cause = c := rfl
@[simp] theorem enterHalted_faultAddr (c : Cause) (a w : Word) (s : State) : (enterHalted c a w s).faultAddr = a := rfl
@[simp] theorem enterHalted_faultWord (c : Cause) (a w : Word) (s : State) : (enterHalted c a w s).faultWord = w := rfl
@[simp] theorem enterHalted_waitReg (c : Cause) (a w : Word) (s : State) : (enterHalted c a w s).waitReg = s.waitReg := rfl
@[simp] theorem enterHalted_cfg (c : Cause) (a w : Word) (s : State) : (enterHalted c a w s).cfg = s.cfg := rfl
@[simp] theorem enterHalted_host (c : Cause) (a w : Word) (s : State) : (enterHalted c a w s).host = s.host := rfl

@[simp] theorem State.setI_getV (s : State) (a : Word) (y : Nibble) : (s.setI a).getV y = s.getV y := rfl
@[simp] theorem State.setPc_getV (s : State) (a : Word) (y : Nibble) : (s.setPc a).getV y = s.getV y := rfl
@[simp] theorem State.setDt_getV (s : State) (b : Byte) (y : Nibble) : (s.setDt b).getV y = s.getV y := rfl
@[simp] theorem State.setSt_getV (s : State) (b : Byte) (y : Nibble) : (s.setSt b).getV y = s.getV y := rfl
@[simp] theorem advancePc_getV (s : State) (y : Nibble) : (advancePc s).getV y = s.getV y := rfl
@[simp] theorem timerTick_getV (s : State) (y : Nibble) : (timerTick s).getV y = s.getV y := rfl
@[simp] theorem enterHalted_getV (c : Cause) (a w : Word) (s : State) (y : Nibble) : (enterHalted c a w s).getV y = s.getV y := rfl
@[simp] theorem State.setV_readByte (s : State) (x : Nibble) (b : Byte) (k : Nat) : (s.setV x b).readByte k = s.readByte k := rfl
@[simp] theorem State.setI_readByte (s : State) (a : Word) (k : Nat) : (s.setI a).readByte k = s.readByte k := rfl
@[simp] theorem State.setPc_readByte (s : State) (a : Word) (k : Nat) : (s.setPc a).readByte k = s.readByte k := rfl
@[simp] theorem State.setDt_readByte (s : State) (b : Byte) (k : Nat) : (s.setDt b).readByte k = s.readByte k := rfl
@[simp] theorem State.setSt_readByte (s : State) (b : Byte) (k : Nat) : (s.setSt b).readByte k = s.readByte k := rfl
@[simp] theorem advancePc_readByte (s : State) (k : Nat) : (advancePc s).readByte k = s.readByte k := rfl
@[simp] theorem timerTick_readByte (s : State) (k : Nat) : (timerTick s).readByte k = s.readByte k := rfl
@[simp] theorem enterHalted_readByte (c : Cause) (a w : Word) (s : State) (k : Nat) : (enterHalted c a w s).readByte k = s.readByte k := rfl
@[simp] theorem State.setV_sp (s : State) (x : Nibble) (b : Byte) : (s.setV x b).sp = s.sp := rfl
@[simp] theorem State.setI_sp (s : State) (a : Word) : (s.setI a).sp = s.sp := rfl
@[simp] theorem State.setPc_sp (s : State) (a : Word) : (s.setPc a).sp = s.sp := rfl
@[simp] theorem State.setDt_sp (s : State) (b : Byte) : (s.setDt b).sp = s.sp := rfl
@[simp] theorem State.setSt_sp (s : State) (b : Byte) : (s.setSt b).sp = s.sp := rfl
@[simp] theorem advancePc_sp (s : State) : (advancePc s).sp = s.sp := rfl
@[simp] theorem timerTick_sp (s : State) : (timerTick s).sp = s.sp := rfl
@[simp] theorem enterHalted_sp (c : Cause) (a w : Word) (s : State) : (enterHalted c a w s).sp = s.sp := rfl

/-- A register read after a register write. -/
theorem getV_setV (s : State) (x y : Nibble) (b : Byte) : (s.setV x b).getV y = if y = x then b else s.getV y := by
  unfold State.getV State.setV
  by_cases h : y = x
  · subst h; simp
  · have hne : x.toNat ≠ y.toNat := fun e => h (BitVec.eq_of_toNat_eq e.symm)
    simp [h, hne]

@[simp] theorem getV_setV_same (s : State) (x : Nibble) (b : Byte) : (s.setV x b).getV x = b := by simp [getV_setV]

theorem getV_setV_ne (s : State) {x y : Nibble} (b : Byte) (h : y ≠ x) : (s.setV x b).getV y = s.getV y := by
  simp [getV_setV, h]

end Sys2Proof.Machine
end

