-- ==== Sys2Proof/Laws/Memory.lean ====
section
/-! SUPPORT. The laws of memory: the canonical form is kept, and a read after writes. -/

namespace Sys2Proof.Machine

theorem Memory.wfFrom_cons (lo k : Nat) (c : Byte) (m : Memory) :
    Memory.wfFrom lo ((k, c) :: m) = true ↔
      lo ≤ k ∧ k < memSize ∧ c ≠ Memory.unlisted k ∧ Memory.wfFrom (k + 1) m = true := by
  simp [Memory.wfFrom, and_assoc]

theorem Memory.wfFrom_mono {lo lo' : Nat} {m : Memory} (h : Memory.wfFrom lo m = true) (hle : lo' ≤ lo) :
    Memory.wfFrom lo' m = true := by
  cases m with
  | nil => rfl
  | cons e m =>
    rw [Memory.wfFrom_cons] at h ⊢
    exact ⟨le_trans hle h.1, h.2⟩

theorem Memory.entry_wfFrom {lo a : Nat} {b : Byte} {m : Memory} (hlo : lo ≤ a) (ha : a < memSize)
    (h : Memory.wfFrom (a + 1) m = true) : Memory.wfFrom lo (Memory.entry a b m) = true := by
  unfold Memory.entry
  split
  · exact Memory.wfFrom_mono h (by omega)
  · rename_i hb
    rw [Memory.wfFrom_cons]
    exact ⟨hlo, ha, hb, h⟩

/-- One store keeps the canonical form. -/
theorem Memory.write_wfFrom {a : Nat} {b : Byte} (ha : a < memSize) {lo : Nat} {m : Memory} (hlo : lo ≤ a)
    (h : Memory.wfFrom lo m = true) : Memory.wfFrom lo (m.write a b) = true := by
  induction m generalizing lo with
  | nil => exact Memory.entry_wfFrom hlo ha rfl
  | cons e m ih =>
    obtain ⟨k, c⟩ := e
    have hh := h
    rw [Memory.wfFrom_cons] at h
    unfold Memory.write
    split
    · rename_i hlt
      refine Memory.entry_wfFrom hlo ha ?_
      rw [Memory.wfFrom_cons]
      exact ⟨by omega, h.2⟩
    · split
      · rename_i heq
        subst heq
        exact Memory.entry_wfFrom hlo ha h.2.2.2
      · rw [Memory.wfFrom_cons]
        exact ⟨h.1, h.2.1, h.2.2.1, ih (by omega) h.2.2.2⟩

theorem Memory.write_wf {m : Memory} (h : m.wf = true) {a : Nat} (ha : a < memSize) (b : Byte) : (m.write a b).wf = true :=
  Memory.write_wfFrom ha (Nat.zero_le a) h

/-- A block store inside MEM keeps the canonical form. -/
theorem Memory.writeBytes_wf {m : Memory} (h : m.wf = true) {a : Nat} {bytes : List Byte}
    (hb : a + bytes.length ≤ memSize) : (m.writeBytes a bytes).wf = true := by
  induction bytes generalizing m a with
  | nil => exact h
  | cons b bs ih =>
    simp only [List.length_cons] at hb
    exact ih (Memory.write_wf h (by omega) b) (by omega)

theorem Memory.reset_wf : State.reset.mem.wf = true := rfl

theorem Memory.read_of_lt {m : Memory} {lo a : Nat} (h : Memory.wfFrom lo m = true) (ha : a < lo) :
    m.read a = Memory.unlisted a := by
  induction m generalizing lo with
  | nil => rfl
  | cons e m ih =>
    obtain ⟨k, c⟩ := e
    rw [Memory.wfFrom_cons] at h
    unfold Memory.read
    rw [if_neg (by omega)]
    exact ih h.2.2.2 (by omega)

theorem Memory.read_entry {a k : Nat} {b : Byte} {m : Memory} (h : Memory.wfFrom (a + 1) m = true) :
    (Memory.entry a b m).read k = if k = a then b else m.read k := by
  unfold Memory.entry
  split
  · rename_i hb
    split
    · rename_i hk
      subst hk
      rw [Memory.read_of_lt h (by omega), hb]
    · rfl
  · simp only [Memory.read, eq_comm]

/-- A read after one store. -/
theorem Memory.read_write {lo : Nat} {m : Memory} (h : Memory.wfFrom lo m = true) (a k : Nat) (b : Byte) :
    (m.write a b).read k = if k = a then b else m.read k := by
  induction m generalizing lo with
  | nil => exact Memory.read_entry rfl
  | cons e m ih =>
    obtain ⟨j, c⟩ := e
    have hh := h
    rw [Memory.wfFrom_cons] at h
    unfold Memory.write
    split
    · rename_i hlt
      refine Memory.read_entry ?_
      rw [Memory.wfFrom_cons]
      exact ⟨by omega, h.2⟩
    · split
      · rename_i heq
        subst heq
        rw [Memory.read_entry h.2.2.2]
        by_cases hk : k = a
        · simp [hk]
        · simp [Memory.read, hk, Ne.symm hk]
      · rename_i hne
        unfold Memory.read
        split
        · rename_i hjk
          subst hjk
          rw [if_neg (fun e => hne e.symm)]
        · exact ih h.2.2.2

/-- A read after a block store inside MEM: the byte stored there, or what was there. -/
theorem Memory.read_writeBytes {m : Memory} (h : m.wf = true) {a : Nat} {bytes : List Byte}
    (hb : a + bytes.length ≤ memSize) (k : Nat) :
    (m.writeBytes a bytes).read k =
      if a ≤ k ∧ k < a + bytes.length then bytes.getD (k - a) 0 else m.read k := by
  induction bytes generalizing m a with
  | nil =>
    rw [if_neg (by simp only [List.length_nil]; omega)]
    rfl
  | cons b bs ih =>
    simp only [List.length_cons] at hb ⊢
    unfold Memory.writeBytes
    rw [ih (Memory.write_wf h (by omega) b) (by omega), Memory.read_write h]
    by_cases hk : k = a
    · subst hk
      simp
    · by_cases hin : a ≤ k ∧ k < a + (bs.length + 1)
      · have e : k - a = (k - (a + 1)) + 1 := by omega
        rw [if_pos (by omega), if_pos hin, e, List.getD_cons_succ]
      · rw [if_neg (by omega), if_neg hin, if_neg hk]

@[simp] theorem Memory.readBytes_length (m : Memory) (a n : Nat) : (m.readBytes a n).length = n := by
  induction n generalizing a with
  | zero => rfl
  | succ n ih => simp [Memory.readBytes, ih]

theorem Memory.readBytes_getD (m : Memory) {a n k : Nat} (hk : k < n) :
    (m.readBytes a n).getD k 0 = m.read (a + k) := by
  induction n generalizing a k with
  | zero => omega
  | succ n ih =>
    cases k with
    | zero => simp [Memory.readBytes]
    | succ k =>
      have e : a + (k + 1) = a + 1 + k := by omega
      rw [Memory.readBytes, List.getD_cons_succ, ih (by omega), e]

/-- Above MEM an address reads as zero in canonical memory; no checked access reaches it. -/
theorem Memory.unlisted_of_ge {a : Nat} (h : 80 ≤ a) : Memory.unlisted a = 0 := by
  unfold Memory.unlisted
  rw [List.getD_eq_getElem?_getD, List.getElem?_eq_none]
  · rfl
  · exact h

end Sys2Proof.Machine
end

