-- ==== Sys2Proof/Laws/Ops.lean ====
section
/-! SUPPORT. For each shared operation, everything it can do, once. -/

namespace Sys2Proof.Machine

theorem inRange_iff (a n : Nat) : inRange a n = true ↔ n = 0 ∨ a + n ≤ 4096 := by
  unfold inRange
  rw [decide_eq_true_iff]
  omega

/-- A checked read answers the bytes, or the range leaves MEM. -/
theorem memRead_cases (a n : Nat) (s : State) :
    (inRange a n = true ∧ memRead a n s = some (s.mem.readBytes a n)) ∨ (inRange a n = false ∧ memRead a n s = none) := by
  unfold memRead
  cases inRange a n <;> simp

/-- A checked write answers the state with the bytes stored, or the range leaves MEM. -/
theorem memWrite_cases (a : Nat) (bytes : List Byte) (s : State) :
    (inRange a bytes.length = true ∧ memWrite a bytes s = some { s with mem := s.mem.writeBytes a bytes }) ∨
      (inRange a bytes.length = false ∧ memWrite a bytes s = none) := by
  unfold memWrite
  cases inRange a bytes.length <;> simp

/-- A checked write keeps the canonical form. -/
theorem memWrite_wf {a : Nat} {bytes : List Byte} {s t : State} (h : s.mem.wf = true)
    (hw : memWrite a bytes s = some t) : t.mem.wf = true := by
  obtain ⟨hr, e⟩ | ⟨-, e⟩ := memWrite_cases a bytes s
  · rw [e] at hw
    cases hw
    rw [inRange_iff] at hr
    obtain hz | hle := hr
    · rw [List.length_eq_zero_iff] at hz
      subst hz
      exact h
    · exact Memory.writeBytes_wf h hle
  · rw [e] at hw
    cases hw

theorem skipIf_cases (c : Bool) (s : State) :
    (c = true ∧ skipIf c s = s.setPc (s.pc + 2)) ∨ (c = false ∧ skipIf c s = s) := by
  cases c <;> simp [skipIf]

/-- A skip changes PC and nothing else. -/
theorem skipIf_eq (c : Bool) (s : State) : skipIf c s = { s with pc := if c then s.pc + 2 else s.pc } := by
  cases c <;> rfl

theorem push_cases (a : Word) (s : State) :
    (s.sp < s.cfg.stackDepth ∧ push a s = some { s with stack := a :: s.stack }) ∨
      (s.cfg.stackDepth ≤ s.sp ∧ push a s = none) := by
  unfold push
  split
  · exact .inl ⟨‹_›, rfl⟩
  · exact .inr ⟨by omega, rfl⟩

theorem pop_cases (s : State) :
    (s.stack = [] ∧ pop s = none) ∨
      ∃ a rest, s.stack = a :: rest ∧ pop s = some (a, { s with stack := rest }) := by
  unfold pop
  split
  · exact .inl ⟨‹_›, rfl⟩
  · exact .inr ⟨_, _, ‹_›, rfl⟩

/-- Sampling an answer of the host changes `host` and nothing else. -/
theorem sampleQuit_snd (s : State) : (sampleQuit s).2 = { s with host := (sampleQuit s).2.host } := by
  unfold sampleQuit
  split <;> rfl

theorem sampleKeyEvent_snd (s : State) : (sampleKeyEvent s).2 = { s with host := (sampleKeyEvent s).2.host } := by
  unfold sampleKeyEvent
  split <;> rfl

theorem sampleKeys_snd (s : State) : (sampleKeys s).2 = { s with host := (sampleKeys s).2.host } := by
  unfold sampleKeys
  split <;> rfl

theorem sampleRnd_snd (s : State) : (sampleRnd s).2 = { s with host := (sampleRnd s).2.host } := by
  unfold sampleRnd
  split <;> rfl

theorem sampleTicks_snd (s : State) : (sampleTicks s).2 = { s with host := (sampleTicks s).2.host } := by
  unfold sampleTicks
  split <;> rfl

/-- An answer depends on `host` alone. -/
theorem sampleQuit_host {s t : State} (h : s.host = t.host) : (sampleQuit s).1 = (sampleQuit t).1 := by
  unfold sampleQuit
  rw [h]
  split <;> rfl

theorem sampleKeys_host {s t : State} (h : s.host = t.host) : (sampleKeys s).1 = (sampleKeys t).1 := by
  unfold sampleKeys
  rw [h]
  split <;> rfl

theorem sampleRnd_host {s t : State} (h : s.host = t.host) : (sampleRnd s).1 = (sampleRnd t).1 := by
  unfold sampleRnd
  rw [h]
  split <;> rfl

/-- A fault taken by an instruction is a next state. -/
theorem raise_eq (c : Cause) (ins : Instr) (s : State) : raise c ins s = .next (enterHalted c s.a0 (encode ins) s) := rfl

theorem countDown_toNat (d : Byte) : (countDown d).toNat = d.toNat - 1 := by
  unfold countDown
  split
  · rename_i h
    subst h
    rfl
  · rename_i h
    have h0 : d.toNat ≠ 0 := fun e => h (BitVec.eq_of_toNat_eq e)
    rw [BitVec.toNat_sub]
    have := d.isLt
    have h1 : (1 : Byte).toNat = 1 := rfl
    rw [h1]
    omega

/-- Ticks change DT and ST and nothing else. -/
theorem timerTicks_eq (k : Nat) (s : State) :
    timerTicks k s = { s with dt := (timerTicks k s).dt, st := (timerTicks k s).st } := by
  induction k generalizing s with
  | zero => rfl
  | succ k ih =>
    unfold timerTicks
    rw [ih]
    rfl

theorem flagByte_toNat (f : Bool) : (flagByte f).toNat = if f then 1 else 0 := by cases f <;> rfl

theorem setResultThenFlag_getV (x y : Nibble) (r f : Byte) (s : State) :
    (setResultThenFlag x r f s).getV y = if y = flagReg then f else if y = x then r else s.getV y := by
  simp only [setResultThenFlag, getV_setV]

theorem setFlagThenResult_getV (x y : Nibble) (f r : Byte) (s : State) :
    (setFlagThenResult x f r s).getV y = if y = x then r else if y = flagReg then f else s.getV y := by
  simp only [setFlagThenResult, getV_setV]

/-- A block load changes registers and nothing else. -/
theorem setBlock_eq (k : Nat) (bytes : List Byte) (s : State) :
    setBlock k bytes s = { s with v := (setBlock k bytes s).v } := by
  induction bytes generalizing k s with
  | nil => rfl
  | cons b bs ih =>
    unfold setBlock
    rw [ih]
    rfl

/-- The registers after a block load from register `k` on. -/
theorem setBlock_getV (k : Nat) (bytes : List Byte) (s : State) (y : Nibble) (hk : k + bytes.length ≤ 16) :
    (setBlock k bytes s).getV y =
      if k ≤ y.toNat ∧ y.toNat < k + bytes.length then bytes.getD (y.toNat - k) 0 else s.getV y := by
  induction bytes generalizing k s with
  | nil =>
    rw [if_neg (by simp only [List.length_nil]; omega)]
    rfl
  | cons b bs ih =>
    simp only [List.length_cons] at hk ⊢
    unfold setBlock
    rw [ih (k + 1) _ (by omega), getV_setV]
    have hy : y = BitVec.ofNat 4 k ↔ y.toNat = k := by
      constructor
      · intro e
        rw [e, BitVec.toNat_ofNat]
        omega
      · intro e
        apply BitVec.eq_of_toNat_eq
        rw [BitVec.toNat_ofNat]
        omega
    by_cases h1 : y.toNat = k
    · rw [if_neg (by omega), if_pos (hy.2 h1), if_pos (by omega), h1]
      simp
    · by_cases hin : k ≤ y.toNat ∧ y.toNat < k + (bs.length + 1)
      · have e : y.toNat - k = (y.toNat - (k + 1)) + 1 := by omega
        rw [if_pos (by omega), if_pos hin, e, List.getD_cons_succ]
      · rw [if_neg (by omega), if_neg hin, if_neg (fun e => h1 (hy.1 e))]

theorem blockRegs_length (x : Nibble) (s : State) : (blockRegs x s).length = x.toNat + 1 := by
  have := x.isLt
  simp only [blockRegs, blockSize, List.length_take, Vector.length_toList]
  omega

theorem blockRegs_getD (x y : Nibble) (s : State) (h : y.toNat ≤ x.toNat) :
    (blockRegs x s).getD y.toNat 0 = s.getV y := by
  have hx := x.isLt
  have hy := y.isLt
  unfold blockRegs blockSize State.getV
  rw [List.getD_eq_getElem?_getD, List.getElem?_take, if_pos (by omega), List.getElem?_eq_getElem (by simp; omega)]
  simp

/-- The k-th decimal digit stored, hundreds first (43_index_memory R213). -/
theorem bcdDigits_getD (b : Byte) {k : Nat} (h : k < 3) :
    (bcdDigits b).getD k 0 = BitVec.ofNat 8 (b.toNat / 10 ^ (2 - k) % 10) := by
  have := b.isLt
  interval_cases k
  · simp only [bcdDigits, List.getD_cons_zero]
    rw [Nat.mod_eq_of_lt (by omega : b.toNat / 10 ^ (2 - 0) < 10)]
    rfl
  · simp [bcdDigits]
  · simp [bcdDigits]

/-- Toggling one pixel. -/
theorem pixel_togglePixel (fb : Framebuffer) (r r' : Fin 32) (c c' : Fin 64) :
    pixel (togglePixel fb r c) r' c' = if r' = r ∧ c' = c then !pixel fb r' c' else pixel fb r' c' := by
  unfold pixel togglePixel
  by_cases hr : r' = r
  · subst hr
    by_cases hc : c' = c
    · subst hc
      simp
    · have hne : ¬(c'.val = c.val) := fun e => hc (Fin.ext e)
      simp [hc, hne]
  · have hne : ¬(r.val = r'.val) := fun e => hr (Fin.ext e.symm)
    simp [hr, hne]

@[simp] theorem pixel_blankFb (r : Fin 32) (c : Fin 64) : pixel blankFb r c = false := by
  simp [pixel, blankFb]

/-- Two framebuffers with the same pixels are equal. -/
theorem fb_ext {a b : Framebuffer} (h : ∀ r c, pixel a r c = pixel b r c) : a = b := by
  apply Vector.ext
  intro r hr
  apply BitVec.eq_of_getLsbD_eq
  intro c hc
  exact h ⟨r, hr⟩ ⟨c, hc⟩

end Sys2Proof.Machine
end

