-- ==== Sys2Proof/Laws/Display.lean ====
section
/-! SUPPORT. What the sprite-drawing loops do, said once (44_display R231). -/

namespace Sys2Proof.Machine

/-- A column of a sprite row is set and lands on (r, c). -/
def rowCovers (ox oy : Byte) (row : Nat) (b : Byte) (lo hi : Nat) (r : Fin 32) (c : Fin 64) : Prop :=
  r.val = (oy.toNat + row) % 32 ∧ ∃ k, lo ≤ k ∧ k < hi ∧ b.getLsbD (7 - k) = true ∧ c.val = (ox.toNat + k) % 64

theorem plotBit_pixel (ox oy : Byte) (row col : Nat) (bit : Bool) (p : Canvas) (r : Fin 32) (c : Fin 64) :
    pixel (plotBit ox oy row col bit p).fb r c =
      if bit = true ∧ r.val = (oy.toNat + row) % 32 ∧ c.val = (ox.toNat + col) % 64 then !pixel p.fb r c
      else pixel p.fb r c := by
  cases bit with
  | false => simp [plotBit]
  | true => simp only [plotBit, if_true, pixel_togglePixel, Fin.ext_iff, Fin.ofNat, true_and]

theorem plotBit_hit (ox oy : Byte) (row col : Nat) (bit : Bool) (p : Canvas) :
    (plotBit ox oy row col bit p).hit = true ↔
      p.hit = true ∨
        ∃ r c, bit = true ∧ r.val = (oy.toNat + row) % 32 ∧ c.val = (ox.toNat + col) % 64 ∧ pixel p.fb r c = true := by
  cases bit with
  | false => simp [plotBit]
  | true =>
    simp only [plotBit, if_true, Bool.or_eq_true, true_and]
    constructor
    · rintro (h | h)
      · exact .inl h
      · exact .inr ⟨_, _, rfl, rfl, h⟩
    · rintro (h | ⟨r, c, hr, hc, h⟩)
      · exact .inl h
      · right
        have e1 : r = Fin.ofNat 32 (oy.toNat + row) := Fin.ext hr
        have e2 : c = Fin.ofNat 64 (ox.toNat + col) := Fin.ext hc
        rw [e1, e2] at h
        exact h

theorem rowCovers_step (ox oy : Byte) (row : Nat) (b : Byte) (lo n : Nat) (r : Fin 32) (c : Fin 64) :
    rowCovers ox oy row b lo (lo + (n + 1)) r c ↔
      (b.getLsbD (7 - lo) = true ∧ r.val = (oy.toNat + row) % 32 ∧ c.val = (ox.toNat + lo) % 64) ∨
        rowCovers ox oy row b (lo + 1) (lo + 1 + n) r c := by
  unfold rowCovers
  constructor
  · rintro ⟨hr, k, h1, h2, h3, h4⟩
    by_cases hk : k = lo
    · subst hk; exact .inl ⟨h3, hr, h4⟩
    · exact .inr ⟨hr, k, by omega, by omega, h3, h4⟩
  · rintro (⟨h3, hr, h4⟩ | ⟨hr, k, h1, h2, h3, h4⟩)
    · exact ⟨hr, lo, by omega, by omega, h3, h4⟩
    · exact ⟨hr, k, by omega, by omega, h3, h4⟩

/-- A sprite row: the pixels it toggles, and the hit. -/
theorem plotRow_spec (ox oy : Byte) (row : Nat) (b : Byte) (left col : Nat) (p : Canvas) (h : col + left ≤ 8) :
    (∀ r c, (rowCovers ox oy row b col (col + left) r c → pixel (plotRow ox oy row b left col p).fb r c = !pixel p.fb r c) ∧
      (¬ rowCovers ox oy row b col (col + left) r c → pixel (plotRow ox oy row b left col p).fb r c = pixel p.fb r c)) ∧
    ((plotRow ox oy row b left col p).hit = true ↔ p.hit = true ∨
      ∃ r c, rowCovers ox oy row b col (col + left) r c ∧ pixel p.fb r c = true) := by
  induction left generalizing col p with
  | zero =>
    have hf : ∀ r c, ¬ rowCovers ox oy row b col (col + 0) r c := by
      rintro r c ⟨_, k, h1, h2, _⟩; omega
    refine ⟨fun r c => ⟨fun hc => absurd hc (hf r c), fun _ => rfl⟩, ?_⟩
    constructor
    · exact .inl
    · rintro (h | ⟨r, c, hc, _⟩)
      · exact h
      · exact absurd hc (hf r c)
  | succ n ih =>
    obtain ⟨ih1, ih2⟩ := ih (col + 1) (plotBit ox oy row col (b.getLsbD (7 - col)) p) (by omega)
    have disj : ∀ r c, (b.getLsbD (7 - col) = true ∧ r.val = (oy.toNat + row) % 32 ∧ c.val = (ox.toNat + col) % 64) →
        ¬ rowCovers ox oy row b (col + 1) (col + 1 + n) r c := by
      rintro r c ⟨_, _, e⟩ ⟨_, k, k1, k2, _, e'⟩; omega
    refine ⟨?_, ?_⟩
    · intro r c
      rw [rowCovers_step]
      show (_ → pixel (plotRow ox oy row b n (col + 1) _).fb r c = _) ∧ (_ → pixel (plotRow ox oy row b n (col + 1) _).fb r c = _)
      obtain ⟨a1, a2⟩ := ih1 r c
      refine ⟨?_, ?_⟩
      · rintro (hb | hc)
        · rw [a2 (disj r c hb), plotBit_pixel, if_pos hb]
        · rw [a1 hc, plotBit_pixel, if_neg (fun hb => disj r c hb hc)]
      · intro hn
        rw [not_or] at hn
        rw [a2 hn.2, plotBit_pixel, if_neg hn.1]
    · show (plotRow ox oy row b n (col + 1) _).hit = true ↔ _
      rw [ih2, plotBit_hit, or_assoc]
      refine or_congr_right ?_
      constructor
      · rintro (⟨r, c, h1, h2, h3, h4⟩ | ⟨r, c, h1, h2⟩)
        · exact ⟨r, c, (rowCovers_step ..).2 (.inl ⟨h1, h2, h3⟩), h4⟩
        · rw [plotBit_pixel, if_neg (fun hb => disj r c hb h1)] at h2
          exact ⟨r, c, (rowCovers_step ..).2 (.inr h1), h2⟩
      · rintro ⟨r, c, h1, h2⟩
        obtain hb | hc := (rowCovers_step ..).1 h1
        · exact .inl ⟨r, c, hb.1, hb.2.1, hb.2.2, h2⟩
        · refine .inr ⟨r, c, hc, ?_⟩
          rw [plotBit_pixel, if_neg (fun hb => disj r c hb hc)]
          exact h2

/-- Some row of the sprite, from screen row `row` on, lands on (r, c). -/
def rowsCover (ox oy : Byte) (row : Nat) (bytes : List Byte) (r : Fin 32) (c : Fin 64) : Prop :=
  ∃ k, k < bytes.length ∧ rowCovers ox oy (row + k) (bytes.getD k 0) 0 8 r c

theorem rowsCover_cons (ox oy : Byte) (row : Nat) (b : Byte) (bs : List Byte) (r : Fin 32) (c : Fin 64) :
    rowsCover ox oy row (b :: bs) r c ↔ rowCovers ox oy row b 0 8 r c ∨ rowsCover ox oy (row + 1) bs r c := by
  unfold rowsCover
  constructor
  · rintro ⟨k, hk, h⟩
    cases k with
    | zero => exact .inl h
    | succ k =>
      refine .inr ⟨k, by simpa using hk, ?_⟩
      rw [List.getD_cons_succ, show row + (k + 1) = row + 1 + k by omega] at h
      exact h
  · rintro (h | ⟨k, hk, h⟩)
    · exact ⟨0, by simp, h⟩
    · refine ⟨k + 1, by simpa using hk, ?_⟩
      rw [List.getD_cons_succ, show row + (k + 1) = row + 1 + k by omega]
      exact h

/-- What drawing sprite rows does: the exclusive-or with the mask, and the collision (44_display R231). -/
theorem plotRows_spec (ox oy : Byte) (row : Nat) (bytes : List Byte) (p : Canvas) (h : bytes.length ≤ 32) :
    (∀ r c, (rowsCover ox oy row bytes r c → pixel (plotRows ox oy row bytes p).fb r c = !pixel p.fb r c) ∧
      (¬ rowsCover ox oy row bytes r c → pixel (plotRows ox oy row bytes p).fb r c = pixel p.fb r c)) ∧
    ((plotRows ox oy row bytes p).hit = true ↔ p.hit = true ∨
      ∃ r c, rowsCover ox oy row bytes r c ∧ pixel p.fb r c = true) := by
  induction bytes generalizing row p with
  | nil =>
    have hf : ∀ r c, ¬ rowsCover ox oy row [] r c := by
      rintro r c ⟨k, h1, _⟩; simp at h1
    refine ⟨fun r c => ⟨fun hc => absurd hc (hf r c), fun _ => rfl⟩, ?_⟩
    constructor
    · exact .inl
    · rintro (h | ⟨r, c, hc, _⟩)
      · exact h
      · exact absurd hc (hf r c)
  | cons b bs ih =>
    simp only [List.length_cons] at h
    obtain ⟨ih1, ih2⟩ := ih (row + 1) (plotRow ox oy row b 8 0 p) (by omega)
    obtain ⟨b1, b2⟩ := plotRow_spec ox oy row b 8 0 p (by omega)
    rw [Nat.zero_add] at b1 b2
    have disj : ∀ r c, rowCovers ox oy row b 0 8 r c → ¬ rowsCover ox oy (row + 1) bs r c := by
      rintro r c ⟨e, _⟩ ⟨k, k1, e', _⟩; omega
    refine ⟨?_, ?_⟩
    · intro r c
      rw [rowsCover_cons]
      show (_ → pixel (plotRows ox oy (row + 1) bs _).fb r c = _) ∧ (_ → pixel (plotRows ox oy (row + 1) bs _).fb r c = _)
      obtain ⟨a1, a2⟩ := ih1 r c
      refine ⟨?_, ?_⟩
      · rintro (hb | hc)
        · rw [a2 (disj r c hb), (b1 r c).1 hb]
        · rw [a1 hc, (b1 r c).2 (fun hb => disj r c hb hc)]
      · intro hn
        rw [not_or] at hn
        rw [a2 hn.2, (b1 r c).2 hn.1]
    · show (plotRows ox oy (row + 1) bs _).hit = true ↔ _
      rw [ih2, b2, or_assoc]
      refine or_congr_right ?_
      constructor
      · rintro (⟨r, c, h1, h2⟩ | ⟨r, c, h1, h2⟩)
        · exact ⟨r, c, (rowsCover_cons ..).2 (.inl h1), h2⟩
        · rw [(b1 r c).2 (fun hb => disj r c hb h1)] at h2
          exact ⟨r, c, (rowsCover_cons ..).2 (.inr h1), h2⟩
      · rintro ⟨r, c, h1, h2⟩
        obtain hb | hc := (rowsCover_cons ..).1 h1
        · exact .inl ⟨r, c, hb, h2⟩
        · refine .inr ⟨r, c, hc, ?_⟩
          rw [(b1 r c).2 (fun hb => disj r c hb hc)]
          exact h2
end Sys2Proof.Machine
end

