-- ==== Sys2Proof/Laws/Exec.lean ====
section
/-! SUPPORT. For each meaning that can fault, its two cases: the effect, or the fault's next state; then what any
instruction can do. -/

namespace Sys2Proof.Machine

theorem execRet_cases (s : State) :
    (∃ a rest, s.stack = a :: rest ∧ execRet s = .next { s with pc := a, stack := rest }) ∨
      (s.stack = [] ∧ execRet s = .next (enterHalted .stackUnderflow s.a0 (encode .ret) s)) := by
  unfold execRet
  obtain ⟨h, e⟩ | ⟨a, rest, h, e⟩ := pop_cases s
  · rw [e]
    exact .inr ⟨h, rfl⟩
  · rw [e]
    exact .inl ⟨a, rest, h, rfl⟩

theorem execCallNnn_cases (nnn : Addr) (s : State) :
    (s.sp < s.cfg.stackDepth ∧
        execCallNnn nnn s = .next { s with pc := targetNnn nnn, stack := s.pc :: s.stack }) ∨
      (s.cfg.stackDepth ≤ s.sp ∧
        execCallNnn nnn s = .next (enterHalted .stackOverflow s.a0 (encode (.callNnn nnn)) s)) := by
  unfold execCallNnn
  obtain ⟨h, e⟩ | ⟨h, e⟩ := push_cases s.pc s
  · rw [e]
    exact .inl ⟨h, rfl⟩
  · rw [e]
    exact .inr ⟨h, rfl⟩

theorem execLdBVx_cases (x : Nibble) (s : State) :
    (addrI s + 2 ≤ 4095 ∧
        execLdBVx x s = .next { s with mem := s.mem.writeBytes (addrI s) (bcdDigits (s.getV x)) }) ∨
      (addrI s + 2 > 4095 ∧ execLdBVx x s = .next (enterHalted .memoryOutOfRange s.a0 (encode (.ldBVx x)) s)) := by
  have hl : (bcdDigits (s.getV x)).length = 3 := rfl
  unfold execLdBVx
  obtain ⟨h, e⟩ | ⟨h, e⟩ := memWrite_cases (addrI s) (bcdDigits (s.getV x)) s
  · rw [e]
    rw [inRange_iff, hl] at h
    exact .inl ⟨by omega, rfl⟩
  · rw [e]
    rw [← Bool.not_eq_true, inRange_iff, hl] at h
    exact .inr ⟨by omega, rfl⟩

theorem execLdMemIVx_cases (x : Nibble) (s : State) :
    (addrI s + x.toNat ≤ 4095 ∧
        execLdMemIVx x s =
          .next { s with mem := s.mem.writeBytes (addrI s) (blockRegs x s), i := iAfterBlock x s }) ∨
      (addrI s + x.toNat > 4095 ∧
        execLdMemIVx x s = .next (enterHalted .memoryOutOfRange s.a0 (encode (.ldMemIVx x)) s)) := by
  have hl := blockRegs_length x s
  unfold execLdMemIVx
  obtain ⟨h, e⟩ | ⟨h, e⟩ := memWrite_cases (addrI s) (blockRegs x s) s
  · rw [e]
    rw [inRange_iff, hl] at h
    exact .inl ⟨by omega, rfl⟩
  · rw [e]
    rw [← Bool.not_eq_true, inRange_iff, hl] at h
    exact .inr ⟨by omega, rfl⟩

theorem execLdVxMemI_cases (x : Nibble) (s : State) :
    (addrI s + x.toNat ≤ 4095 ∧
        execLdVxMemI x s =
          .next ((setBlock 0 (s.mem.readBytes (addrI s) (blockSize x)) s).setI (iAfterBlock x s))) ∨
      (addrI s + x.toNat > 4095 ∧
        execLdVxMemI x s = .next (enterHalted .memoryOutOfRange s.a0 (encode (.ldVxMemI x)) s)) := by
  unfold execLdVxMemI
  obtain ⟨h, e⟩ | ⟨h, e⟩ := memRead_cases (addrI s) (blockSize x) s
  · rw [e]
    rw [inRange_iff] at h
    simp only [blockSize] at h
    exact .inl ⟨by omega, rfl⟩
  · rw [e]
    rw [← Bool.not_eq_true, inRange_iff] at h
    simp only [blockSize] at h
    exact .inr ⟨by omega, rfl⟩

/-- What DRW draws. -/
abbrev drawn (x y n : Nibble) (s : State) : Canvas :=
  plotRows (s.getV x) (s.getV y) 0 (s.mem.readBytes (addrI s) n.toNat) { fb := s.fb, hit := false }

theorem execDrwVxVyN_cases (x y n : Nibble) (s : State) :
    ((n.toNat = 0 ∨ addrI s + n.toNat - 1 ≤ 4095) ∧
        execDrwVxVyN x y n s =
          .next ({ s with fb := (drawn x y n s).fb }.setV flagReg (flagByte (drawn x y n s).hit))) ∨
      (n.toNat ≥ 1 ∧ addrI s + n.toNat - 1 > 4095 ∧
        execDrwVxVyN x y n s = .next (enterHalted .memoryOutOfRange s.a0 (encode (.drwVxVyN x y n)) s)) := by
  unfold execDrwVxVyN
  obtain ⟨h, e⟩ | ⟨h, e⟩ := memRead_cases (addrI s) n.toNat s
  · rw [e]
    rw [inRange_iff] at h
    exact .inl ⟨by omega, rfl⟩
  · rw [e]
    rw [← Bool.not_eq_true, inRange_iff] at h
    exact .inr ⟨by omega, by omega, rfl⟩

/-- RND takes one answer of the host and masks it. -/
theorem execRndVxKk_eq (x : Nibble) (kk : Byte) (s : State) :
    execRndVxKk x kk s = .next ((sampleRnd s).2.setV x ((sampleRnd s).1 &&& kk)) := rfl

theorem execSkpVx_cases (x : Nibble) (s : State) :
    ((s.getV x).toNat ≤ 0xF ∧
        execSkpVx x s = .next (skipIf (keyLevel (sampleKeys s).1 (s.getV x)) (sampleKeys s).2)) ∨
      ((s.getV x).toNat > 0xF ∧
        execSkpVx x s = .next (enterHalted .invalidKeyIndex s.a0 (encode (.skpVx x)) s)) := by
  unfold execSkpVx badKey
  by_cases h : (s.getV x).toNat > 0xF
  · exact .inr ⟨h, by simp only [h, decide_true, if_true]; rfl⟩
  · exact .inl ⟨by omega, by simp only [h, decide_false]; rfl⟩

theorem execSknpVx_cases (x : Nibble) (s : State) :
    ((s.getV x).toNat ≤ 0xF ∧
        execSknpVx x s = .next (skipIf (!keyLevel (sampleKeys s).1 (s.getV x)) (sampleKeys s).2)) ∨
      ((s.getV x).toNat > 0xF ∧
        execSknpVx x s = .next (enterHalted .invalidKeyIndex s.a0 (encode (.sknpVx x)) s)) := by
  unfold execSknpVx badKey
  by_cases h : (s.getV x).toNat > 0xF
  · exact .inr ⟨h, by simp only [h, decide_true, if_true]; rfl⟩
  · exact .inl ⟨by omega, by simp only [h, decide_false]; rfl⟩

/-- Every instruction answers a next state. -/
theorem exec_next (ins : Instr) (s : State) : ∃ t, exec ins s = .next t := by
  cases ins with
  | ret => obtain ⟨_,_,_,h⟩|⟨_,h⟩ := execRet_cases s <;> exact ⟨_, h⟩
  | callNnn a => obtain ⟨_,h⟩|⟨_,h⟩ := execCallNnn_cases a s <;> exact ⟨_, h⟩
  | ldBVx a => obtain ⟨_,h⟩|⟨_,h⟩ := execLdBVx_cases a s <;> exact ⟨_, h⟩
  | ldMemIVx a => obtain ⟨_,h⟩|⟨_,h⟩ := execLdMemIVx_cases a s <;> exact ⟨_, h⟩
  | ldVxMemI a => obtain ⟨_,h⟩|⟨_,h⟩ := execLdVxMemI_cases a s <;> exact ⟨_, h⟩
  | drwVxVyN a b c => obtain ⟨_,h⟩|⟨_,_,h⟩ := execDrwVxVyN_cases a b c s <;> exact ⟨_, h⟩
  | skpVx a => obtain ⟨_,h⟩|⟨_,h⟩ := execSkpVx_cases a s <;> exact ⟨_, h⟩
  | sknpVx a => obtain ⟨_,h⟩|⟨_,h⟩ := execSknpVx_cases a s <;> exact ⟨_, h⟩
  | _ => exact ⟨_, rfl⟩

/-- Everything an instruction can do to the fields that invariants speak of: it halts by `enterHalted`, or it leaves the
fault record, and RUN but for LD Vx,K, and moves PC and the stack as one of four forms. -/
theorem exec_cases {ins : Instr} {s t : State} (h : exec ins s = .next t) :
    (s.mem.wf = true → t.mem.wf = true) ∧ t.cfg = s.cfg ∧
    (t = enterHalted t.cause s.a0 (encode ins) s ∧ t.cause ≠ .noFault ∨
      (t.cause = s.cause ∧ t.faultAddr = s.faultAddr ∧ t.faultWord = s.faultWord ∧
       ((∀ x, ins ≠ .ldVxK x) → t.run = s.run) ∧ (∀ x, ins = .ldVxK x → t.run = .waitingForKey ∧ t.waitReg = x) ∧
       (s.stackFits → t.stackFits) ∧
       (t.stack = s.stack ∧ (t.pc = s.pc ∨ t.pc = s.pc + 2 ∨ t.pc.toNat ≤ 0x10FE) ∨
         (t.stack = s.pc :: s.stack ∧ t.pc.toNat < 4096) ∨ s.stack = t.pc :: t.stack))) := by
  have fin : ∀ c, c ≠ Cause.noFault → exec ins s = .next (enterHalted c s.a0 (encode ins) s) →
      (t = enterHalted t.cause s.a0 (encode ins) s ∧ t.cause ≠ .noFault) ∧ t.mem = s.mem ∧ t.cfg = s.cfg := by
    intro c hc e; rw [e] at h; cases h; exact ⟨⟨rfl, hc⟩, rfl, rfl⟩
  cases ins with
  | ret =>
    obtain ⟨a, r, h', e⟩|⟨h', e⟩ := execRet_cases s
    · rw [show exec .ret s = execRet s from rfl, e] at h; cases h
      refine ⟨id, rfl, .inr ⟨rfl, rfl, rfl, fun _ => rfl, by simp, ?_, .inr (.inr h')⟩⟩
      simp only [State.stackFits, State.sp, h']; intro hh; simp at *; omega
    · obtain ⟨f1, f2, f3⟩ := fin _ (by decide) e; rw [f2]; exact ⟨id, f3, .inl f1⟩
  | callNnn a =>
    obtain ⟨h', e⟩|⟨h', e⟩ := execCallNnn_cases a s
    · rw [show exec (.callNnn a) s = execCallNnn a s from rfl, e] at h; cases h
      refine ⟨id, rfl, .inr ⟨rfl, rfl, rfl, fun _ => rfl, by simp, ?_, .inr (.inl ⟨rfl, ?_⟩)⟩⟩
      · intro _; simp only [State.stackFits, State.sp] at *; simp; omega
      · simp [targetNnn]; have := a.isLt; omega
    · obtain ⟨f1, f2, f3⟩ := fin _ (by decide) e; rw [f2]; exact ⟨id, f3, .inl f1⟩
  | drwVxVyN x y n =>
    obtain ⟨h', e⟩|⟨_, h', e⟩ := execDrwVxVyN_cases x y n s
    · rw [show exec (.drwVxVyN x y n) s = execDrwVxVyN x y n s from rfl, e] at h; cases h
      exact ⟨id, rfl, .inr ⟨rfl, rfl, rfl, fun _ => rfl, by simp, id, .inl ⟨rfl, .inl rfl⟩⟩⟩
    · obtain ⟨f1, f2, f3⟩ := fin _ (by decide) e; rw [f2]; exact ⟨id, f3, .inl f1⟩
  | ldBVx x =>
    obtain ⟨h', e⟩|⟨h', e⟩ := execLdBVx_cases x s
    · rw [show exec (.ldBVx x) s = execLdBVx x s from rfl, e] at h; cases h
      exact ⟨fun hw => Memory.writeBytes_wf hw (by simp [bcdDigits, memSize]; omega), rfl, .inr ⟨rfl, rfl, rfl, fun _ => rfl, by simp, id, .inl ⟨rfl, .inl rfl⟩⟩⟩
    · obtain ⟨f1, f2, f3⟩ := fin _ (by decide) e; rw [f2]; exact ⟨id, f3, .inl f1⟩
  | ldMemIVx x =>
    obtain ⟨h', e⟩|⟨h', e⟩ := execLdMemIVx_cases x s
    · rw [show exec (.ldMemIVx x) s = execLdMemIVx x s from rfl, e] at h; cases h
      exact ⟨fun hw => Memory.writeBytes_wf hw (by rw [blockRegs_length]; simp [memSize]; omega), rfl, .inr ⟨rfl, rfl, rfl, fun _ => rfl, by simp, id, .inl ⟨rfl, .inl rfl⟩⟩⟩
    · obtain ⟨f1, f2, f3⟩ := fin _ (by decide) e; rw [f2]; exact ⟨id, f3, .inl f1⟩
  | ldVxMemI x =>
    obtain ⟨h', e⟩|⟨h', e⟩ := execLdVxMemI_cases x s
    · rw [show exec (.ldVxMemI x) s = execLdVxMemI x s from rfl, e, setBlock_eq] at h; cases h
      exact ⟨id, rfl, .inr ⟨rfl, rfl, rfl, fun _ => rfl, by simp, id, .inl ⟨rfl, .inl rfl⟩⟩⟩
    · obtain ⟨f1, f2, f3⟩ := fin _ (by decide) e; rw [f2]; exact ⟨id, f3, .inl f1⟩
  | skpVx x =>
    obtain ⟨h', e⟩|⟨h', e⟩ := execSkpVx_cases x s
    · rw [show exec (.skpVx x) s = execSkpVx x s from rfl, e, skipIf_eq, sampleKeys_snd] at h; cases h
      refine ⟨id, rfl, .inr ⟨rfl, rfl, rfl, fun _ => rfl, by simp, id, .inl ⟨rfl, ?_⟩⟩⟩
      dsimp only; split <;> simp
    · obtain ⟨f1, f2, f3⟩ := fin _ (by decide) e; rw [f2]; exact ⟨id, f3, .inl f1⟩
  | sknpVx x =>
    obtain ⟨h', e⟩|⟨h', e⟩ := execSknpVx_cases x s
    · rw [show exec (.sknpVx x) s = execSknpVx x s from rfl, e, skipIf_eq, sampleKeys_snd] at h; cases h
      refine ⟨id, rfl, .inr ⟨rfl, rfl, rfl, fun _ => rfl, by simp, id, .inl ⟨rfl, ?_⟩⟩⟩
      dsimp only; split <;> simp
    · obtain ⟨f1, f2, f3⟩ := fin _ (by decide) e; rw [f2]; exact ⟨id, f3, .inl f1⟩
  | rndVxKk x kk =>
    rw [show exec (.rndVxKk x kk) s = execRndVxKk x kk s from rfl, execRndVxKk_eq, sampleRnd_snd] at h; cases h
    exact ⟨id, rfl, .inr ⟨rfl, rfl, rfl, fun _ => rfl, by simp, id, .inl ⟨rfl, .inl rfl⟩⟩⟩
  | seVxKk x kk =>
    rw [show exec (.seVxKk x kk) s = .next (skipIf _ s) from rfl, skipIf_eq] at h; cases h
    refine ⟨id, rfl, .inr ⟨rfl, rfl, rfl, fun _ => rfl, by simp, id, .inl ⟨rfl, ?_⟩⟩⟩
    dsimp only; split <;> simp
  | sneVxKk x kk =>
    rw [show exec (.sneVxKk x kk) s = .next (skipIf _ s) from rfl, skipIf_eq] at h; cases h
    refine ⟨id, rfl, .inr ⟨rfl, rfl, rfl, fun _ => rfl, by simp, id, .inl ⟨rfl, ?_⟩⟩⟩
    dsimp only; split <;> simp
  | seVxVy x kk =>
    rw [show exec (.seVxVy x kk) s = .next (skipIf _ s) from rfl, skipIf_eq] at h; cases h
    refine ⟨id, rfl, .inr ⟨rfl, rfl, rfl, fun _ => rfl, by simp, id, .inl ⟨rfl, ?_⟩⟩⟩
    dsimp only; split <;> simp
  | sneVxVy x kk =>
    rw [show exec (.sneVxVy x kk) s = .next (skipIf _ s) from rfl, skipIf_eq] at h; cases h
    refine ⟨id, rfl, .inr ⟨rfl, rfl, rfl, fun _ => rfl, by simp, id, .inl ⟨rfl, ?_⟩⟩⟩
    dsimp only; split <;> simp
  | jpNnn a =>
    cases h; refine ⟨id, rfl, .inr ⟨rfl, rfl, rfl, fun _ => rfl, by simp, id, .inl ⟨rfl, .inr (.inr ?_)⟩⟩⟩
    simp [targetNnn]; have := a.isLt; omega
  | jpV0Nnn a =>
    cases h; refine ⟨id, rfl, .inr ⟨rfl, rfl, rfl, fun _ => rfl, by simp, id, .inl ⟨rfl, .inr (.inr ?_)⟩⟩⟩
    simp [targetV0Nnn]; have := a.isLt; have := (s.getV 0#4).isLt; omega
  | ldVxK x =>
    cases h; exact ⟨id, rfl, .inr ⟨rfl, rfl, rfl, fun h => absurd rfl (h x), by simp, id, .inl ⟨rfl, .inl rfl⟩⟩⟩
  | _ => cases h; exact ⟨id, rfl, .inr ⟨rfl, rfl, rfl, fun _ => rfl, by simp, id, .inl ⟨rfl, .inl rfl⟩⟩⟩

end Sys2Proof.Machine
end

