-- ==== Sys2Proof/Laws/PerInstr.lean ====
section
/-! SUPPORT. Statements made per instruction: one lemma per constructor. -/

namespace Sys2Proof.Laws.EncodedFamily

/-- The word of an instruction carries its family (30_encoding R96) in the top nibble, and takes two bytes (R90). -/
def Statement (i : Instr) : Prop := fieldOp (encode i) = i.family ∧ (encodeBytes i).length = 2

theorem cls : Statement (.cls) := ⟨rfl, rfl⟩
theorem ret : Statement (.ret) := ⟨rfl, rfl⟩
theorem sysNnn (nnn : Addr) : Statement (.sysNnn nnn) := ⟨fieldOp_addr _ nnn, rfl⟩
theorem jpNnn (nnn : Addr) : Statement (.jpNnn nnn) := ⟨fieldOp_addr _ nnn, rfl⟩
theorem callNnn (nnn : Addr) : Statement (.callNnn nnn) := ⟨fieldOp_addr _ nnn, rfl⟩
theorem seVxKk (x : Nibble) (kk : Byte) : Statement (.seVxKk x kk) := ⟨fieldOp_regByte _ x kk, rfl⟩
theorem sneVxKk (x : Nibble) (kk : Byte) : Statement (.sneVxKk x kk) := ⟨fieldOp_regByte _ x kk, rfl⟩
theorem seVxVy (x : Nibble) (y : Nibble) : Statement (.seVxVy x y) := ⟨fieldOp_regReg _ x y _, rfl⟩
theorem ldVxKk (x : Nibble) (kk : Byte) : Statement (.ldVxKk x kk) := ⟨fieldOp_regByte _ x kk, rfl⟩
theorem addVxKk (x : Nibble) (kk : Byte) : Statement (.addVxKk x kk) := ⟨fieldOp_regByte _ x kk, rfl⟩
theorem ldVxVy (x : Nibble) (y : Nibble) : Statement (.ldVxVy x y) := ⟨fieldOp_regReg _ x y _, rfl⟩
theorem orVxVy (x : Nibble) (y : Nibble) : Statement (.orVxVy x y) := ⟨fieldOp_regReg _ x y _, rfl⟩
theorem andVxVy (x : Nibble) (y : Nibble) : Statement (.andVxVy x y) := ⟨fieldOp_regReg _ x y _, rfl⟩
theorem xorVxVy (x : Nibble) (y : Nibble) : Statement (.xorVxVy x y) := ⟨fieldOp_regReg _ x y _, rfl⟩
theorem addVxVy (x : Nibble) (y : Nibble) : Statement (.addVxVy x y) := ⟨fieldOp_regReg _ x y _, rfl⟩
theorem subVxVy (x : Nibble) (y : Nibble) : Statement (.subVxVy x y) := ⟨fieldOp_regReg _ x y _, rfl⟩
theorem shrVxVy (x : Nibble) (y : Nibble) : Statement (.shrVxVy x y) := ⟨fieldOp_regReg _ x y _, rfl⟩
theorem subnVxVy (x : Nibble) (y : Nibble) : Statement (.subnVxVy x y) := ⟨fieldOp_regReg _ x y _, rfl⟩
theorem shlVxVy (x : Nibble) (y : Nibble) : Statement (.shlVxVy x y) := ⟨fieldOp_regReg _ x y _, rfl⟩
theorem sneVxVy (x : Nibble) (y : Nibble) : Statement (.sneVxVy x y) := ⟨fieldOp_regReg _ x y _, rfl⟩
theorem ldINnn (nnn : Addr) : Statement (.ldINnn nnn) := ⟨fieldOp_addr _ nnn, rfl⟩
theorem jpV0Nnn (nnn : Addr) : Statement (.jpV0Nnn nnn) := ⟨fieldOp_addr _ nnn, rfl⟩
theorem rndVxKk (x : Nibble) (kk : Byte) : Statement (.rndVxKk x kk) := ⟨fieldOp_regByte _ x kk, rfl⟩
theorem drwVxVyN (x : Nibble) (y : Nibble) (n : Nibble) : Statement (.drwVxVyN x y n) := ⟨fieldOp_regReg _ x y n, rfl⟩
theorem skpVx (x : Nibble) : Statement (.skpVx x) := ⟨fieldOp_regByte _ x _, rfl⟩
theorem sknpVx (x : Nibble) : Statement (.sknpVx x) := ⟨fieldOp_regByte _ x _, rfl⟩
theorem ldVxDt (x : Nibble) : Statement (.ldVxDt x) := ⟨fieldOp_regByte _ x _, rfl⟩
theorem ldVxK (x : Nibble) : Statement (.ldVxK x) := ⟨fieldOp_regByte _ x _, rfl⟩
theorem ldDtVx (x : Nibble) : Statement (.ldDtVx x) := ⟨fieldOp_regByte _ x _, rfl⟩
theorem ldStVx (x : Nibble) : Statement (.ldStVx x) := ⟨fieldOp_regByte _ x _, rfl⟩
theorem addIVx (x : Nibble) : Statement (.addIVx x) := ⟨fieldOp_regByte _ x _, rfl⟩
theorem ldFVx (x : Nibble) : Statement (.ldFVx x) := ⟨fieldOp_regByte _ x _, rfl⟩
theorem ldBVx (x : Nibble) : Statement (.ldBVx x) := ⟨fieldOp_regByte _ x _, rfl⟩
theorem ldMemIVx (x : Nibble) : Statement (.ldMemIVx x) := ⟨fieldOp_regByte _ x _, rfl⟩
theorem ldVxMemI (x : Nibble) : Statement (.ldVxMemI x) := ⟨fieldOp_regByte _ x _, rfl⟩

end Sys2Proof.Laws.EncodedFamily
end

