-- ==== Sys2Proof/Laws/Step.lean ====
section
/-! SUPPORT. What one iteration can do, said once (40_cycle R130). -/

namespace Sys2Proof.Machine

theorem fetch_cases (s : State) :
    (s.pc.toNat ≤ 4094 ∧
        fetch s = some (joinBytes (s.readByte s.pc.toNat) (s.readByte (s.pc.toNat + 1)))) ∨
      (s.pc.toNat > 4094 ∧ fetch s = none) := by
  unfold fetch
  obtain ⟨h, e⟩ | ⟨h, e⟩ := memRead_cases s.pc.toNat 2 s
  · rw [e]
    rw [inRange_iff] at h
    exact .inl ⟨by omega, rfl⟩
  · rw [e]
    rw [← Bool.not_eq_true, inRange_iff] at h
    exact .inr ⟨by omega, rfl⟩

/-- A Running iteration, QUIT low: it halts at the fetch, halts at the decoder, or runs the instruction. -/
theorem runningIteration_cases (s : State) :
    (fetch s = none ∧ runningIteration s = .next (enterHalted .memoryOutOfRange s.pc 0 s)) ∨
      (∃ w e, fetch s = some w ∧ decodeWord w = .error e ∧
        runningIteration s = .next (enterHalted .unimplementedOpcode s.pc w (advancePc s))) ∨
      (∃ w ins, fetch s = some w ∧ decodeWord w = .ok ins ∧
        runningIteration s = onNext endOfInstruction (exec ins (advancePc s))) := by
  unfold runningIteration
  split
  · exact .inl ⟨‹_›, rfl⟩
  · split
    · exact .inr (.inl ⟨_, _, ‹_›, ‹_›, rfl⟩)
    · exact .inr (.inr ⟨_, _, ‹_›, ‹_›, rfl⟩)

/-- An iteration, by the state it starts from (60_exceptions R278's order). -/
theorem iteration_cases (s : State) :
    ((s.run = .halted ∨ s.run = .stopped) ∧ iteration s = .next s) ∨
      ((s.run = .running ∨ s.run = .waitingForKey) ∧ (sampleQuit s).1 = true ∧
        iteration s = .next { (sampleQuit s).2 with run := .stopped }) ∨
      (s.run = .running ∧ (sampleQuit s).1 = false ∧ iteration s = runningIteration (sampleQuit s).2) ∨
      (s.run = .waitingForKey ∧ (sampleQuit s).1 = false ∧ iteration s = .next (waitingIteration (sampleQuit s).2)) := by
  unfold iteration
  rcases sampleQuit s with ⟨q, t⟩
  cases hr : s.run <;> cases q <;> simp

/-- The host's ticks change DT, ST and the host's answers, nothing else (40_cycle R141). -/
theorem betweenIterations_eq (s : State) :
    betweenIterations s =
      { s with
        dt := (betweenIterations s).dt
        st := (betweenIterations s).st
        host := (betweenIterations s).host } := by
  unfold betweenIterations
  split
  · have ht := sampleTicks_snd s
    generalize sampleTicks s = p at ht ⊢
    obtain ⟨k, t⟩ := p
    have hh : (timerTicks k t).host = t.host := by rw [timerTicks_eq]
    dsimp only at ht ⊢
    rw [hh]
    conv_lhs => rw [timerTicks_eq]
    cases s
    cases t
    simp only [State.mk.injEq] at ht ⊢
    simp [ht]
  · rfl

/-- What follows an instruction changes DT and ST, nothing else (40_cycle R135). -/
theorem endOfInstruction_eq (s : State) :
    endOfInstruction s = { s with dt := (endOfInstruction s).dt, st := (endOfInstruction s).st } := by
  unfold endOfInstruction
  split
  · rfl
  · split <;> rfl

theorem onNext_next {f : State → State} {r : Result} {t : State} (h : onNext f r = .next t) :
    ∃ u, r = .next u ∧ f u = t := by
  cases r with
  | next u => exact ⟨u, rfl, by simpa [onNext] using h⟩
  | fault e => cases h
  | refused e => cases h

/-- A WaitingForKey iteration changes RUN (at most to Running), the registers and the host's answers. -/
theorem waitingIteration_eq (s : State) :
    ∃ r, waitingIteration s =
        { s with run := r, v := (waitingIteration s).v, host := (waitingIteration s).host } ∧
      (r = s.run ∨ r = .running) := by
  unfold waitingIteration
  have := sampleKeyEvent_snd s
  rcases hk : sampleKeyEvent s with ⟨_|k, t⟩ <;> rw [hk] at this <;>
    simp only at this ⊢ <;> generalize t.host = q at this <;> subst this
  · exact ⟨s.run, rfl, .inl rfl⟩
  · exact ⟨.running, rfl, .inr rfl⟩

/-- RUN after a WaitingForKey iteration: Running exactly when an event was sampled (40_cycle R136). -/
theorem waitingIteration_run (s : State) :
    (waitingIteration s).run = if (sampleKeyEvent s).1.isSome then .running else s.run := by
  have h := sampleKeyEvent_snd s
  unfold waitingIteration
  rcases hk : sampleKeyEvent s with ⟨_ | k, t⟩ <;> rw [hk] at h
  · simp only at h ⊢
    rw [h]
    rfl
  · rfl

theorem betweenIterations_exists (a : State) :
    ∃ d e h, betweenIterations a = { a with dt := d, st := e, host := h } := ⟨_, _, _, betweenIterations_eq a⟩

theorem endOfInstruction_exists (a : State) : ∃ d e, endOfInstruction a = { a with dt := d, st := e } :=
  ⟨_, _, endOfInstruction_eq a⟩

theorem waitingIteration_exists (s : State) :
    ∃ r v h, waitingIteration s = { s with run := r, v := v, host := h } ∧ (r = s.run ∨ r = .running) := by
  obtain ⟨r, e, h⟩ := waitingIteration_eq s
  exact ⟨r, _, _, e, h⟩

/-- Everything a step can do. -/
theorem step_cases {s t : State} (h : step s = .next t) :
    ((s.run = .halted ∨ s.run = .stopped) ∧ t = s) ∨
      ((s.run = .running ∨ s.run = .waitingForKey) ∧ (sampleQuit s).1 = true ∧
        t = { s with run := .stopped, host := (sampleQuit s).2.host }) ∨
      (s.run = .running ∧ (sampleQuit s).1 = false ∧ fetch s = none ∧ s.pc.toNat > 4094 ∧
        t = enterHalted .memoryOutOfRange s.pc 0 (sampleQuit s).2) ∨
      (s.run = .running ∧ (sampleQuit s).1 = false ∧ s.pc.toNat ≤ 4094 ∧
        ∃ w e, fetch s = some w ∧ decodeWord w = .error e ∧
          t = enterHalted .unimplementedOpcode s.pc w (advancePc (sampleQuit s).2)) ∨
      (s.run = .running ∧ (sampleQuit s).1 = false ∧ s.pc.toNat ≤ 4094 ∧
        ∃ ins u, dispatched s = some ins ∧ exec ins (advancePc (sampleQuit s).2) = .next u ∧
          t = { u with dt := t.dt, st := t.st, host := t.host } ∧ t = betweenIterations (endOfInstruction u)) ∨
      (s.run = .waitingForKey ∧ (sampleQuit s).1 = false ∧
        ∃ r, (r = .waitingForKey ∨ r = .running) ∧
          t = { s with run := r, v := t.v, dt := t.dt, st := t.st, host := t.host }) := by
  have h : onNext betweenIterations (iteration s) = .next t := h
  have hq := sampleQuit_snd s
  obtain ⟨h1, e⟩ | ⟨h1, h2, e⟩ | ⟨h1, h2, e⟩ | ⟨h1, h2, e⟩ := iteration_cases s
  · rw [e] at h; cases h
    refine .inl ⟨h1, ?_⟩
    unfold betweenIterations; rw [if_neg]; rcases h1 with h|h <;> simp [h]
  · rw [e] at h; cases h
    refine .inr (.inl ⟨h1, h2, ?_⟩)
    unfold betweenIterations; rw [if_neg (by simp)]; conv_lhs => rw [hq]
  · rw [e] at h
    have hf : fetch (sampleQuit s).2 = fetch s := by rw [hq]; rfl
    have hpc : (sampleQuit s).2.pc = s.pc := by rw [hq]
    obtain ⟨f, e⟩ | ⟨w, er, f, d, e⟩ | ⟨w, ins, f, d, e⟩ := runningIteration_cases (sampleQuit s).2
    · rw [e] at h; cases h
      rw [hf] at f
      obtain ⟨_, g⟩ | ⟨g, _⟩ := fetch_cases s
      · rw [g] at f; cases f
      refine .inr (.inr (.inl ⟨h1, h2, f, g, ?_⟩))
      unfold betweenIterations; rw [if_neg (by simp [enterHalted]), hpc]
    · rw [e] at h; cases h
      rw [hf] at f
      obtain ⟨g, _⟩ | ⟨_, g⟩ := fetch_cases s
      swap
      · rw [g] at f; cases f
      refine .inr (.inr (.inr (.inl ⟨h1, h2, g, w, er, f, d, ?_⟩)))
      unfold betweenIterations; rw [if_neg (by simp [enterHalted]), hpc]
    · rw [e] at h
      rw [hf] at f
      obtain ⟨g, _⟩ | ⟨_, g⟩ := fetch_cases s
      swap
      · rw [g] at f; cases f
      obtain ⟨u, eu⟩ := exec_next ins (advancePc (sampleQuit s).2)
      rw [eu] at h; cases h
      refine .inr (.inr (.inr (.inr (.inl ⟨h1, h2, g, ins, u, ?_, eu, ?_, rfl⟩))))
      · unfold dispatched; rw [if_pos ⟨h1, h2⟩, f]; dsimp only; rw [d]; rfl
      · obtain ⟨a1, a2, ea⟩ := endOfInstruction_exists u
        obtain ⟨b1, b2, b3, eb⟩ := betweenIterations_exists (endOfInstruction u)
        rw [eb, ea]
  · rw [e] at h; cases h
    refine .inr (.inr (.inr (.inr (.inr ⟨h1, h2, ?_⟩))))
    obtain ⟨r, v, hh, hw, hr⟩ := waitingIteration_exists (sampleQuit s).2
    have hrun : (sampleQuit s).2.run = s.run := by rw [hq]
    refine ⟨r, by rwa [hrun, h1] at hr, ?_⟩
    obtain ⟨b1, b2, b3, eb⟩ := betweenIterations_exists (waitingIteration (sampleQuit s).2)
    rw [eb, hw]; dsimp only
    generalize (sampleQuit s).2.host = z at hq
    rw [hq]

end Sys2Proof.Machine
end

