-- ==== Sys2Proof/Machine/Formats.lean ====
section
/-! DEFINITION. The formats of the 35 operations, the family-to-shape table, and the assembler spelling
(30_encoding R92, R93, R101). The step uses none of them. -/

namespace Sys2Proof.Machine

/-- The six layouts (30_encoding R92). -/
inductive Format where
  /-- No operand. -/
  | z
  /-- An address. -/
  | a
  /-- A register and a byte. -/
  | xk
  /-- Two registers. -/
  | xy
  /-- Two registers and a count. -/
  | xyn
  /-- One register. -/
  | x
  deriving DecidableEq, Repr

/-- The table of 16 shapes, one per top nibble (30_encoding R93); the two exact matches of family 0x0 have format Z. -/
def familyFormat (op : Nibble) : Format :=
  if op = 0x0#4 ∨ op = 0x1#4 ∨ op = 0x2#4 ∨ op = 0xA#4 ∨ op = 0xB#4 then .a
  else if op = 0x3#4 ∨ op = 0x4#4 ∨ op = 0x6#4 ∨ op = 0x7#4 ∨ op = 0xC#4 then .xk
  else if op = 0x5#4 ∨ op = 0x8#4 ∨ op = 0x9#4 then .xy
  else if op = 0xD#4 then .xyn
  else .x

/-- The format of an operation (30_encoding R92, column "used by"). -/
def formatOf : Instr → Format
  | .cls | .ret => .z
  | .sysNnn _ | .jpNnn _ | .callNnn _ | .ldINnn _ | .jpV0Nnn _ => .a
  | .seVxKk _ _ | .sneVxKk _ _ | .ldVxKk _ _ | .addVxKk _ _ | .rndVxKk _ _ => .xk
  | .seVxVy _ _ | .sneVxVy _ _ | .ldVxVy _ _ | .orVxVy _ _ | .andVxVy _ _ | .xorVxVy _ _ | .addVxVy _ _ => .xy
  | .subVxVy _ _ | .shrVxVy _ _ | .subnVxVy _ _ | .shlVxVy _ _ => .xy
  | .drwVxVyN _ _ _ => .xyn
  | .skpVx _ | .sknpVx _ | .ldVxDt _ | .ldVxK _ | .ldDtVx _ | .ldStVx _ | .addIVx _ | .ldFVx _ | .ldBVx _ => .x
  | .ldMemIVx _ | .ldVxMemI _ => .x

/-- The ordered operand list a format delivers from a word (30_encoding R92, R94). -/
def operandsOf (f : Format) (w : Word) : List Nat :=
  match f with
  | .z => []
  | .a => [(fieldNnn w).toNat]
  | .xk => [(fieldX w).toNat, (fieldKk w).toNat]
  | .xy => [(fieldX w).toNat, (fieldY w).toNat]
  | .xyn => [(fieldX w).toNat, (fieldY w).toNat, (fieldN w).toNat]
  | .x => [(fieldX w).toNat]

/-- A hexadecimal digit. -/
def hexDigit (d : Nibble) : String :=
  ["0", "1", "2", "3", "4", "5", "6", "7", "8", "9", "A", "B", "C", "D", "E", "F"].getD d.toNat ""

/-- `V0` to `VF` (30_encoding R101). -/
def regName (x : Nibble) : String := "V" ++ hexDigit x

/-- An 8-bit constant kk, as the spec's listings write it. -/
def hexByte (b : Byte) : String := "0x" ++ hexDigit (b.extractLsb' 4 4) ++ hexDigit (b.extractLsb' 0 4)

/-- A 12-bit address nnn, as the spec's listings write it. -/
def hexAddr (a : Addr) : String :=
  "0x" ++ hexDigit (a.extractLsb' 8 4) ++ hexDigit (a.extractLsb' 4 4) ++ hexDigit (a.extractLsb' 0 4)

/-- A 4-bit constant n, as the spec's listings write it. -/
def count (n : Nibble) : String :=
  ["0", "1", "2", "3", "4", "5", "6", "7", "8", "9", "10", "11", "12", "13", "14", "15"].getD n.toNat ""

/-- The mnemonic and its operands, destination first (30_encoding R101). "The word, not the text, is normative." -/
def asmText : Instr → String
  | .cls => "CLS"
  | .ret => "RET"
  | .sysNnn nnn => "SYS " ++ hexAddr nnn
  | .jpNnn nnn => "JP " ++ hexAddr nnn
  | .callNnn nnn => "CALL " ++ hexAddr nnn
  | .seVxKk x kk => "SE " ++ regName x ++ "," ++ hexByte kk
  | .sneVxKk x kk => "SNE " ++ regName x ++ "," ++ hexByte kk
  | .seVxVy x y => "SE " ++ regName x ++ "," ++ regName y
  | .ldVxKk x kk => "LD " ++ regName x ++ "," ++ hexByte kk
  | .addVxKk x kk => "ADD " ++ regName x ++ "," ++ hexByte kk
  | .ldVxVy x y => "LD " ++ regName x ++ "," ++ regName y
  | .orVxVy x y => "OR " ++ regName x ++ "," ++ regName y
  | .andVxVy x y => "AND " ++ regName x ++ "," ++ regName y
  | .xorVxVy x y => "XOR " ++ regName x ++ "," ++ regName y
  | .addVxVy x y => "ADD " ++ regName x ++ "," ++ regName y
  | .subVxVy x y => "SUB " ++ regName x ++ "," ++ regName y
  | .shrVxVy x y => "SHR " ++ regName x ++ "," ++ regName y
  | .subnVxVy x y => "SUBN " ++ regName x ++ "," ++ regName y
  | .shlVxVy x y => "SHL " ++ regName x ++ "," ++ regName y
  | .sneVxVy x y => "SNE " ++ regName x ++ "," ++ regName y
  | .ldINnn nnn => "LD I," ++ hexAddr nnn
  | .jpV0Nnn nnn => "JP V0," ++ hexAddr nnn
  | .rndVxKk x kk => "RND " ++ regName x ++ "," ++ hexByte kk
  | .drwVxVyN x y n => "DRW " ++ regName x ++ "," ++ regName y ++ "," ++ count n
  | .skpVx x => "SKP " ++ regName x
  | .sknpVx x => "SKNP " ++ regName x
  | .ldVxDt x => "LD " ++ regName x ++ ",DT"
  | .ldVxK x => "LD " ++ regName x ++ ",K"
  | .ldDtVx x => "LD DT," ++ regName x
  | .ldStVx x => "LD ST," ++ regName x
  | .addIVx x => "ADD I," ++ regName x
  | .ldFVx x => "LD F," ++ regName x
  | .ldBVx x => "LD B," ++ regName x
  | .ldMemIVx x => "LD [I]," ++ regName x
  | .ldVxMemI x => "LD " ++ regName x ++ ",[I]"

end Sys2Proof.Machine
end

