-- ==== Sys2Proof/Tests/Slice0.lean ====
section
/-! SUPPORT. Tests of the model against the spec's vectors (95_test_vectors), and a witness for the hypotheses of every
statement. -/

namespace Sys2Proof.Tests

open Sys2Proof.Machine

/-! ### Well-formedness (30_encoding R96, R99) -/

theorem test_wf_refuses_sys_0E0 : (Instr.sysNnn 0x0E0#12).wf = false := by decide
theorem test_wf_refuses_sys_0EE : (Instr.sysNnn 0x0EE#12).wf = false := by decide
theorem test_wf_accepts_sys_0E1 : (Instr.sysNnn 0x0E1#12).wf = true := by decide

/-! ### Decoding: a word for every operation, bit by bit from its encoding in 30_encoding R96 -/

theorem test_decode_cls : decodeWord 0b0000000011100000#16 = .ok .cls := by decide
theorem test_decode_ret : decodeWord 0b0000000011101110#16 = .ok .ret := by decide
theorem test_decode_sys : decodeWord 0b0000000100100011#16 = .ok (.sysNnn 0x123#12) := by decide
theorem test_decode_jp : decodeWord 0b0001101010111100#16 = .ok (.jpNnn 0xABC#12) := by decide
theorem test_decode_call : decodeWord 0b0010001000010000#16 = .ok (.callNnn 0x210#12) := by decide
theorem test_decode_se_kk : decodeWord 0b0011101000000101#16 = .ok (.seVxKk 0xA#4 0x05#8) := by decide
theorem test_decode_sne_kk : decodeWord 0b0100001100001000#16 = .ok (.sneVxKk 0x3#4 0x08#8) := by decide
theorem test_decode_se_vy : decodeWord 0b0101000100101111#16 = .ok (.seVxVy 0x1#4 0x2#4) := by decide
theorem test_decode_ld_kk : decodeWord 0b0110101000000101#16 = .ok (.ldVxKk 0xA#4 0x05#8) := by decide
theorem test_decode_add_kk : decodeWord 0b0111000000000010#16 = .ok (.addVxKk 0x0#4 0x02#8) := by decide
theorem test_decode_ld_vy : decodeWord 0b1000000100100000#16 = .ok (.ldVxVy 0x1#4 0x2#4) := by decide
theorem test_decode_or : decodeWord 0b1000000100100001#16 = .ok (.orVxVy 0x1#4 0x2#4) := by decide
theorem test_decode_and : decodeWord 0b1000000100100010#16 = .ok (.andVxVy 0x1#4 0x2#4) := by decide
theorem test_decode_xor : decodeWord 0b1000000100100011#16 = .ok (.xorVxVy 0x1#4 0x2#4) := by decide
theorem test_decode_add_vy : decodeWord 0b1000000000010100#16 = .ok (.addVxVy 0x0#4 0x1#4) := by decide
theorem test_decode_sub : decodeWord 0b1000000000010101#16 = .ok (.subVxVy 0x0#4 0x1#4) := by decide
theorem test_decode_shr : decodeWord 0b1000000100100110#16 = .ok (.shrVxVy 0x1#4 0x2#4) := by decide
theorem test_decode_subn : decodeWord 0b1000000000010111#16 = .ok (.subnVxVy 0x0#4 0x1#4) := by decide
theorem test_decode_shl : decodeWord 0b1000000100101110#16 = .ok (.shlVxVy 0x1#4 0x2#4) := by decide
theorem test_decode_sne_vy : decodeWord 0b1001000100100111#16 = .ok (.sneVxVy 0x1#4 0x2#4) := by decide
theorem test_decode_ld_i : decodeWord 0b1010001011110000#16 = .ok (.ldINnn 0x2F0#12) := by decide
theorem test_decode_jp_v0 : decodeWord 0b1011001100000000#16 = .ok (.jpV0Nnn 0x300#12) := by decide
theorem test_decode_rnd : decodeWord 0b1100001100001111#16 = .ok (.rndVxKk 0x3#4 0x0F#8) := by decide
theorem test_decode_drw : decodeWord 0b1101000100100101#16 = .ok (.drwVxVyN 0x1#4 0x2#4 0x5#4) := by decide
theorem test_decode_skp : decodeWord 0b1110010110011110#16 = .ok (.skpVx 0x5#4) := by decide
theorem test_decode_sknp : decodeWord 0b1110010110100001#16 = .ok (.sknpVx 0x5#4) := by decide
theorem test_decode_ld_vx_dt : decodeWord 0b1111010000000111#16 = .ok (.ldVxDt 0x4#4) := by decide
theorem test_decode_ld_vx_k : decodeWord 0b1111010100001010#16 = .ok (.ldVxK 0x5#4) := by decide
theorem test_decode_ld_dt_vx : decodeWord 0b1111001100010101#16 = .ok (.ldDtVx 0x3#4) := by decide
theorem test_decode_ld_st_vx : decodeWord 0b1111001100011000#16 = .ok (.ldStVx 0x3#4) := by decide
theorem test_decode_add_i : decodeWord 0b1111000100011110#16 = .ok (.addIVx 0x1#4) := by decide
theorem test_decode_ld_f : decodeWord 0b1111010000101001#16 = .ok (.ldFVx 0x4#4) := by decide
theorem test_decode_ld_b : decodeWord 0b1111010100110011#16 = .ok (.ldBVx 0x5#4) := by decide
theorem test_decode_ld_mem : decodeWord 0b1111001001010101#16 = .ok (.ldMemIVx 0x2#4) := by decide
theorem test_decode_ld_from_mem : decodeWord 0b1111001001100101#16 = .ok (.ldVxMemI 0x2#4) := by decide

/-- R98: illegal words of families 0x8, 0xE and 0xF. -/
theorem test_decode_illegal :
    decodeWord 0x8128#16 = .error (.unimplemented 0x8128#16) ∧ decodeWord 0xE000#16 = .error (.unimplemented 0xE000#16) ∧
    decodeWord 0xFFFF#16 = .error (.unimplemented 0xFFFF#16) := by decide

/-- An opcode-table row's bits: bit 0 is the least significant bit of the word. -/
theorem test_table_word : decodeTableWord 16 0x6A05 = some (.ldVxKk 0xA#4 0x05#8) := by decide

/-- R93: the family-to-shape table agrees with the format of every operation. -/
theorem test_family_format (ins : Instr) :
    formatOf ins = familyFormat ins.family ∨ (formatOf ins = .z ∧ ins.family = 0x0#4) := by
  cases ins <;> first | exact .inl rfl | exact .inr ⟨rfl, rfl⟩

/-- R92: the operands in the order delivered; R101: the spelling of the listings in 95_test_vectors part 3. -/
theorem test_operands_and_text :
    operandsOf .xyn 0xD125#16 = [1, 2, 5] ∧ operandsOf .xk 0x6A05#16 = [0xA, 5] ∧
    asmText (.ldVxKk 0x0#4 0xEA#8) = "LD V0,0xEA" ∧ asmText (.ldVxMemI 0x2#4) = "LD V2,[I]" ∧
    asmText (.drwVxVyN 0x0#4 0x1#4 0x2#4) = "DRW V0,V1,2" := by decide

/-! ### One step: 95_test_vectors part 2 (word at 0x200, from reset, unless said) -/

/-- The reset state with the word `w` at PC. -/
def at200 (w : Word) : State := placeWord w State.reset

/-- `s` with registers set. -/
def withV (l : List (Nibble × Byte)) (s : State) : State := l.foldl (fun t p => t.setV p.1 p.2) s

/-- `s` with bytes stored. -/
def withMem (a : Nat) (l : List Byte) (s : State) : State := { s with mem := s.mem.writeBytes a l }

/-- `s` with one pixel on. -/
def withPixel (r : Fin 32) (c : Fin 64) (s : State) : State := { s with fb := togglePixel s.fb r c }

/-- What `f` sees after one step, `none` unless the step answers a next state. -/
def got {α : Type} (f : State → α) (s : State) : Option α :=
  match step s with
  | .next t => some (f t)
  | .fault _ => none
  | .refused _ => none

/-- The fault record and PC. -/
def record (s : State) : RunState × Cause × Word × Word × Word := (s.run, s.cause, s.faultAddr, s.faultWord, s.pc)

/-- The memory bytes from `a` on. -/
def bytesAt (a n : Nat) (s : State) : List Byte := s.mem.readBytes a n

/-- F1: SYS is a no-op, and the timers tick. -/
theorem test_sys : got (fun t => (t.pc, t.dt, t.st)) { at200 0x0123 with dt := 3, st := 1 } = some (0x202, 2, 0) := by decide

/-- F2. -/
theorem test_ret_pops :
    got (fun t => (t.pc, t.sp)) (placeWord 0x00EE { State.reset with pc := 0x216, stack := [0x20A] }) = some (0x20A, 0) := by
  decide

/-- F3: no tick on a fault, and nothing else changes. -/
theorem test_ret_underflows :
    got (fun t => (record t, t.dt)) (placeWord 0x00EE { State.reset with pc := 0x216, dt := 9 }) =
      some ((.halted, .stackUnderflow, 0x216, 0x00EE, 0x218), 9) := by decide

/-- F4. -/
theorem test_jp : got State.pc (placeWord 0x1204 { State.reset with pc := 0x20A }) = some 0x204 := by decide

/-- F7. -/
theorem test_call_pushes :
    got (fun t => (t.stackEntry 0, t.sp, t.pc)) (placeWord 0x2210 { State.reset with pc := 0x208 }) =
      some (some 0x20A, 1, 0x210) := by decide

/-- F8. -/
theorem test_call_overflows :
    got (fun t => (record t, t.sp)) (placeWord 0x2300 { State.reset with pc := 0x240, stack := List.replicate 16 0x202 }) =
      some ((.halted, .stackOverflow, 0x240, 0x2300, 0x242), 16) := by decide

/-- F9. -/
theorem test_se_kk :
    got State.pc (withV [(0xA, 5)] (at200 0x3A05)) = some 0x204 ∧ got State.pc (withV [(0xA, 6)] (at200 0x3A05)) = some 0x202 := by
  decide

/-- F10. -/
theorem test_sne_kk :
    got State.pc (withV [(3, 7)] (placeWord 0x4308 { State.reset with pc := 0x300 })) = some 0x304 ∧
    got State.pc (withV [(3, 7)] (placeWord 0x4307 { State.reset with pc := 0x300 })) = some 0x302 := by decide

/-- F11: the bottom nibble is ignored. -/
theorem test_se_vy :
    got State.pc (withV [(1, 0x10), (2, 0x10)] (at200 0x512F)) = some 0x204 ∧
    got State.pc (withV [(1, 0x10), (2, 0x11)] (at200 0x5120)) = some 0x202 := by decide

/-- F12. -/
theorem test_sne_vy :
    got State.pc (withV [(1, 1), (2, 2)] (at200 0x9127)) = some 0x204 ∧
    got State.pc (withV [(1, 2), (2, 2)] (at200 0x9120)) = some 0x202 := by decide

/-- F13: the target is not masked. -/
theorem test_jp_v0 :
    got State.pc (withV [(0, 4)] (at200 0xB300)) = some 0x304 ∧ got State.pc (withV [(0, 0xFF)] (at200 0xBFFF)) = some 0x10FE := by
  decide

/-- F14, F15: the end of memory. -/
theorem test_fetch_faults :
    got record { State.reset with pc := 0xFFF } = some (.halted, .memoryOutOfRange, 0xFFF, 0, 0xFFF) ∧
    got State.pc (placeWord 0x3000 { State.reset with pc := 0xFFE }) = some 0x1002 := by decide

/-- F16: an odd PC executes. -/
theorem test_odd_pc : got State.pc (placeWord 0x1208 { State.reset with pc := 0x201 }) = some 0x208 := by decide

/-- A1. -/
theorem test_ld_kk : got (fun t => t.getV 0xA) (at200 0x6A05) = some 5 := by decide

/-- A2. -/
theorem test_add_kk :
    got (fun t => (t.getV 0, t.getV 0xF)) (withV [(0, 0xFF)] (at200 0x7002)) = some (1, 0) ∧
    got (fun t => t.getV 0xF) (withV [(0xF, 0xFF)] (at200 0x7F01)) = some 0 := by decide

/-- A3. -/
theorem test_ld_vy : got (fun t => t.getV 1) (withV [(2, 0x7C)] (at200 0x8120)) = some 0x7C := by decide

/-- A4. -/
theorem test_or :
    got (fun t => (t.getV 1, t.getV 0xF)) (withV [(1, 0xF0), (2, 0x0F), (0xF, 1)] (at200 0x8121)) = some (0xFF, 1) := by decide

/-- A5. -/
theorem test_and :
    got (fun t => (t.getV 1, t.getV 0xF)) (withV [(1, 0xF0), (2, 0x3C), (0xF, 1)] (at200 0x8122)) = some (0x30, 1) := by decide

/-- A6. -/
theorem test_xor :
    got (fun t => (t.getV 1, t.getV 0xF)) (withV [(1, 0xF0), (2, 0x3C), (0xF, 1)] (at200 0x8123)) = some (0xCC, 1) := by decide

/-- A7a, A7d. -/
theorem test_add_vy :
    got (fun t => (t.getV 0, t.getV 0xF)) (withV [(0, 0xC8), (1, 0x64)] (at200 0x8014)) = some (0x2C, 1) ∧
    got (fun t => (t.getV 0, t.getV 0xF)) (withV [(0, 0x81)] (at200 0x8004)) = some (0x02, 1) := by decide

/-- A7e, A7f: the carry survives in VF. -/
theorem test_add_vf :
    got (fun t => t.getV 0xF) (withV [(0xF, 0xF0), (1, 0x20)] (at200 0x8F14)) = some 1 ∧
    got (fun t => (t.getV 0, t.getV 0xF)) (withV [(0, 0xFF), (0xF, 1)] (at200 0x80F4)) = some (0, 1) := by decide

/-- A8a, A8b. -/
theorem test_sub :
    got (fun t => (t.getV 0, t.getV 0xF)) (withV [(0, 3), (1, 5), (0xF, 1)] (at200 0x8015)) = some (0xFE, 0) ∧
    got (fun t => (t.getV 0, t.getV 0xF)) (withV [(0, 5), (1, 5)] (at200 0x8015)) = some (0, 1) := by decide

/-- A8c, A8d: the result survives in VF. -/
theorem test_sub_vf :
    got (fun t => t.getV 0xF) (withV [(0xF, 7), (1, 5)] (at200 0x8F15)) = some 2 ∧
    got (fun t => (t.getV 0, t.getV 0xF)) (withV [(0, 9), (0xF, 3)] (at200 0x80F5)) = some (6, 1) := by decide

/-- A9a, A9c: Vy is shifted. -/
theorem test_shr :
    got (fun t => (t.getV 1, t.getV 2, t.getV 0xF)) (withV [(1, 0xAA), (2, 5)] (at200 0x8126)) = some (2, 5, 1) ∧
    got (fun t => (t.getV 1, t.getV 0xF)) (withV [(1, 0x80), (0xF, 1)] (at200 0x8116)) = some (0x40, 0) := by decide

/-- A9d, A9e. -/
theorem test_shr_vf :
    got (fun t => t.getV 0xF) (withV [(2, 7)] (at200 0x8F26)) = some 3 ∧
    got (fun t => (t.getV 1, t.getV 0xF)) (withV [(0xF, 3)] (at200 0x81F6)) = some (1, 1) := by decide

/-- A10a, A10b, A10c. -/
theorem test_subn :
    got (fun t => (t.getV 0, t.getV 0xF)) (withV [(0, 3), (1, 5)] (at200 0x8017)) = some (2, 1) ∧
    got (fun t => (t.getV 0, t.getV 0xF)) (withV [(0, 5), (1, 3), (0xF, 1)] (at200 0x8017)) = some (0xFE, 0) ∧
    got (fun t => t.getV 0xF) (withV [(0xF, 2), (1, 9)] (at200 0x8F17)) = some 7 := by decide

/-- A11a, A11c, A11d. -/
theorem test_shl :
    got (fun t => (t.getV 1, t.getV 2, t.getV 0xF)) (withV [(2, 0x81)] (at200 0x812E)) = some (2, 0x81, 1) ∧
    got (fun t => (t.getV 1, t.getV 0xF)) (withV [(2, 0x40), (0xF, 1)] (at200 0x812E)) = some (0x80, 0) ∧
    got (fun t => t.getV 0xF) (withV [(2, 0xC1)] (at200 0x8F2E)) = some 0x82 := by decide

/-- A12: the host's byte, masked. -/
theorem test_rnd :
    got (fun t => (t.getV 3, t.host.rnd)) { at200 0xC30F with host := { Inputs.silent with rnd := [0xA7, 1] } } =
      some (0x07, [1]) := by decide

/-- A13. -/
theorem test_unimplemented :
    got (fun t => (record t, t.getV 1)) (withV [(1, 1), (2, 2)] (at200 0x8128)) =
      some ((.halted, .unimplementedOpcode, 0x200, 0x8128, 0x202), 1) := by decide

/-- M1. -/
theorem test_ld_i : got State.i (at200 0xA2F0) = some 0x2F0 := by decide

/-- M2b, M2c. -/
theorem test_add_i :
    got (fun t => (t.i, t.getV 0xF)) (withV [(1, 1)] { at200 0xF11E with i := 0xFFF }) = some (0x1000, 0) ∧
    got State.i (withV [(1, 1)] { at200 0xF11E with i := 0xFFFF }) = some 0 := by decide

/-- M3. -/
theorem test_ld_f :
    got State.i (withV [(4, 0x0A)] (at200 0xF429)) = some 0x32 ∧ got State.i (withV [(4, 0xFF)] (at200 0xF429)) = some 0x4FB := by
  decide

/-- M4a, M4c. -/
theorem test_ld_b :
    got (fun t => (bytesAt 0x300 3 t, t.i)) (withV [(5, 234)] { at200 0xF533 with i := 0x300 }) = some ([2, 3, 4], 0x300) ∧
    got (bytesAt 4093 3) (withV [(5, 107)] { at200 0xF533 with i := 4093 }) = some [1, 0, 7] := by decide

/-- M4d: no byte of the write happens. -/
theorem test_ld_b_faults :
    got (fun t => (record t, bytesAt 4094 2 t)) (withV [(5, 107)] (withMem 4094 [0xEE, 0xEE] { at200 0xF533 with i := 4094 })) =
      some ((.halted, .memoryOutOfRange, 0x200, 0xF533, 0x202), [0xEE, 0xEE]) := by decide

/-- M5a, M5d. -/
theorem test_ld_mem :
    got (fun t => (bytesAt 0x400 4 t, t.i)) (withV [(0, 1), (1, 2), (2, 3), (3, 4)] { at200 0xF255 with i := 0x400 }) =
      some ([1, 2, 3, 0], 0x403) ∧
    got (fun t => (bytesAt 4095 1 t, t.i)) (withV [(0, 0xAB)] { at200 0xF055 with i := 4095 }) = some ([0xAB], 0x1000) := by
  decide

/-- M5c. -/
theorem test_ld_mem_faults :
    got (fun t => (record t, bytesAt 4095 1 t, t.i)) (withV [(0, 1), (1, 2)] (withMem 4095 [0x77] { at200 0xF155 with i := 4095 })) =
      some ((.halted, .memoryOutOfRange, 0x200, 0xF155, 0x202), [0x77], 0xFFF) := by decide

/-- M6a, M6b: V3 is left, and the default font is what memory holds at 0. -/
theorem test_ld_from_mem :
    got (fun t => ([t.getV 0, t.getV 1, t.getV 2, t.getV 3], t.i))
      (withV [(3, 0x99)] (withMem 0x300 [2, 3, 4, 5] { at200 0xF265 with i := 0x300 })) = some ([2, 3, 4, 0x99], 0x303) ∧
    got (fun t => (t.v.toList, t.i)) (at200 0xFF65) =
      some ([0xF0, 0x90, 0x90, 0x90, 0xF0, 0x20, 0x60, 0x20, 0x20, 0x70, 0xF0, 0x10, 0xF0, 0x80, 0xF0, 0xF0], 0x10) := by
  decide

/-- M6d. -/
theorem test_ld_from_mem_faults :
    got (fun t => (record t, t.getV 0)) (withV [(0, 0x55)] { at200 0xF065 with i := 0x1000 }) =
      some ((.halted, .memoryOutOfRange, 0x200, 0xF065, 0x202), 0x55) := by decide

/-- D1. -/
theorem test_cls :
    got (fun t => (t.fb, t.getV 0xF)) (withV [(0xF, 1)] (withPixel 0 0 (withPixel 31 63 (at200 0x00E0)))) = some (blankFb, 1) ∧
    fbUpdated (at200 0x00E0) = true := by decide

/-- D3 (wrap on both axes; column c at bit c of its row), D4 (a collision), D10 (the origin is sampled before VF is
written). -/
theorem test_drw_draws :
    got (fun t => (t.fb[31], t.fb[0], t.fb[30], t.getV 0xF))
      (withV [(0, 62), (1, 31)] (withMem 0x20E [0xFF, 0x81] { at200 0xD012 with i := 0x20E })) =
      some (0xC00000000000003F, 0x4000000000000020, 0, 0) ∧
    got (fun t => (pixel t.fb 0 0, pixel t.fb 0 1, pixel t.fb 0 2, t.getV 0xF))
      (withPixel 0 1 (withPixel 0 2 (withMem 0x300 [0xC0] { at200 0xD011 with i := 0x300 }))) = some (true, false, true, 1) ∧
    got (fun t => (pixel t.fb 1 8, t.getV 0xF)) (withV [(0xF, 8), (0, 1)] (withMem 0x300 [0x80] { at200 0xDF01 with i := 0x300 })) =
      some (true, 0) := by decide

/-- D6, D9: n = 0 makes no access; a sprite over the end of memory changes nothing. -/
theorem test_drw_bounds :
    got (fun t => (t.run, pixel t.fb 0 1, t.getV 0xF)) (withV [(0xF, 1)] (withPixel 0 1 { at200 0xD010 with i := 0x1234 })) =
      some (.running, true, 0) ∧
    got (fun t => (record t, pixel t.fb 0 0, t.getV 0xF))
      (withV [(0xF, 1)] (withPixel 0 0 (withMem 4095 [0xFF] { at200 0xD012 with i := 4095 }))) =
      some ((.halted, .memoryOutOfRange, 0x200, 0xD012, 0x202), true, 1) := by decide

/-- `s` with the key levels that the next SKP or SKNP sees. -/
def withKeys (l : BitVec 16) (s : State) : State := { s with host := { s.host with keys := [l] } }

/-- K1. -/
theorem test_skp :
    got State.pc (withKeys 0x0800 (withV [(5, 0x0B)] (at200 0xE59E))) = some 0x204 ∧
    got State.pc (withKeys 0xF7FF (withV [(5, 0x0B)] (at200 0xE59E))) = some 0x202 := by decide

/-- K2. -/
theorem test_sknp :
    got State.pc (withKeys 0x0800 (withV [(5, 0x0B)] (at200 0xE5A1))) = some 0x202 ∧
    got State.pc (withKeys 0xF7FF (withV [(5, 0x0B)] (at200 0xE5A1))) = some 0x204 := by decide

/-- K3. -/
theorem test_bad_key :
    got record (withKeys 1 (withV [(5, 0x10)] (at200 0xE59E))) = some (.halted, .invalidKeyIndex, 0x200, 0xE59E, 0x202) ∧
    got record (withKeys 1 (withV [(5, 0xFF)] (at200 0xE5A1))) = some (.halted, .invalidKeyIndex, 0x200, 0xE5A1, 0x202) := by
  decide

/-- K4. -/
theorem test_ld_vx_dt :
    got (fun t => (t.getV 4, t.dt)) { at200 0xF407 with dt := 4 } = some (4, 3) ∧
    got (fun t => (t.getV 4, t.dt)) (withV [(4, 9)] (at200 0xF407)) = some (0, 0) := by decide

/-- K5: set, then ticked. -/
theorem test_ld_dt_vx :
    got State.dt (withV [(3, 5)] (at200 0xF315)) = some 4 ∧
    got State.dt (withV [(3, 0)] { at200 0xF315 with dt := 7 }) = some 0 := by decide

/-- K6. -/
theorem test_ld_st_vx :
    got (fun t => (t.st, (outputs t).soundOn)) (withV [(3, 5)] (at200 0xF318)) = some (4, true) ∧
    got (fun t => (t.st, (outputs t).soundOn)) (withV [(3, 1)] (at200 0xF318)) = some (0, false) := by decide

/-- K7, iteration 1. -/
theorem test_ld_vx_k :
    got (fun t => (t.run, t.waitReg, t.pc, t.dt, t.st)) (placeWord 0xF50A { State.reset with pc := 0x208, dt := 3, st := 2 }) =
      some (.waitingForKey, 5, 0x20A, 2, 1) := by decide

/-- K7, iteration 4: the event, and no tick. -/
theorem test_key_event :
    got (fun t => (t.getV 5, t.run, t.pc, t.dt))
      { State.reset with
        run := .waitingForKey, waitReg := 5, pc := 0x20A, dt := 2, host := { Inputs.silent with keyEvents := [some 0xB] } } =
      some (0x0B, .running, 0x20A, 2) := by decide

/-- K8, X4: QUIT is looked at first. -/
theorem test_quit_first :
    got (fun t => (t.run, t.getV 5, t.cause))
      { State.reset with
        run := .waitingForKey, waitReg := 5, host := { Inputs.silent with quit := [true], keyEvents := [some 3] } } =
      some (.stopped, 0, .noFault) ∧
    got (fun t => (t.run, t.cause)) { State.reset with pc := 0xFFF, host := { Inputs.silent with quit := [true] } } =
      some (.stopped, .noFault) := by decide

/-- 40_cycle R141: with TIMER_TICK = external an instruction does not tick, and the host's ticks follow the iteration. -/
theorem test_external_ticks :
    got (fun t => (t.dt, t.st))
      { at200 0x0123 with dt := 5, st := 1, cfg := { stackDepth := 16, timerTick := .external },
                          host := { Inputs.silent with ticks := [2] } } = some (3, 0) := by decide

/-- The host's question on an opcode-table row: the step from reset fetches and runs the placed word. -/
theorem test_with_fetch_word :
    decodeTableWord 16 0x2210 = some (.callNnn 0x210#12) ∧ got State.pc (State.reset.withFetchWord 16 0x2210) = some 0x210 := by
  decide

/-! ### Witnesses: every statement's hypotheses, each clause at a boundary -/

/-- A host that answers nothing is asked for QUIT and answers low. -/
theorem test_silent_quit (s : State) (h : s.host.quit = []) : sampleQuit s = (false, s) := by
  unfold sampleQuit
  rw [h]

theorem test_witness_DecodeOfEncodeIsTheInstruction :
    (Instr.sysNnn 0x0E1#12).wf = true ∧ (Instr.sysNnn 0xFFF#12).wf = true ∧ (Instr.ldVxMemI 0xF#4).wf = true := by decide

theorem test_witness_EncodeOfDecodeIsTheWord :
    decodeWord 0x512F#16 = .ok (.seVxVy 0x1#4 0x2#4) ∧ decodeWord 0x9127#16 = .ok (.sneVxVy 0x1#4 0x2#4) ∧
    decodeWord 0xF265#16 = .ok (.ldVxMemI 0x2#4) := by decide

theorem test_witness_FetchIsBigEndian :
    ({ State.reset with pc := 4094 } : State).pc.toNat ≤ 4094 ∧ ({ State.reset with pc := 0x201 } : State).pc.toNat ≤ 4094 ∧
    (at200 0x6A05).pc = 0x200#16 ∧ (at200 0x6A05).readByte 0x200 = 0x6A#8 ∧ (at200 0x6A05).readByte 0x201 = 0x05#8 := by
  decide

theorem test_witness_StepRunsTheDecodedInstruction :
    ∃ s t u ins, s.run = .running ∧ sampleQuit s = (false, t) ∧ s.pc.toNat ≤ 4094 ∧
      decodeBytes [s.readByte s.pc.toNat, s.readByte (s.pc.toNat + 1)] = .ok (ins, []) ∧
      exec ins { t with pc := s.pc + 2 } = .next u :=
  ⟨at200 0x6A05, at200 0x6A05, _, .ldVxKk 0xA#4 0x05#8, by decide, rfl, by decide, by decide, rfl⟩

theorem test_witness_TickFollowsAnUnfaultedInstruction :
    ({ State.reset with run := .halted } : State).run = .halted ∧
    ({ State.reset with cfg := ⟨1, .external⟩ } : State).cfg.timerTick = .external ∧
    State.reset.run ≠ .halted ∧ State.reset.cfg.timerTick = .perCycle := by decide

/-- An external-tick state. -/
def externalState (run : RunState) (ticks : List Nat) : State :=
  { State.reset with run := run, cfg := ⟨1, .external⟩, host := { Inputs.silent with ticks := ticks } }

theorem test_witness_HostTicksFallBetweenIterations :
    State.reset.cfg.timerTick = .perCycle ∧ (externalState .halted []).run = .halted ∧
    (externalState .stopped []).run = .stopped ∧
    (externalState .running []).cfg.timerTick = .external ∧ (externalState .running []).run = .running ∧
    (externalState .running []).host.ticks = [] ∧ (externalState .waitingForKey [0, 300]).run = .waitingForKey ∧
    (externalState .waitingForKey [0, 300]).host.ticks = 0 :: [300] := by decide

/-- A state with a QUIT answer. -/
def quitState (run : RunState) : State := { State.reset with run := run, host := { Inputs.silent with quit := [true] } }

theorem test_witness_QuitStopsBeforeAnythingElse :
    (quitState .running).run = .running ∧ (quitState .waitingForKey).run = .waitingForKey ∧
    (quitState .running).host.quit = true :: [] ∧ (quitState .waitingForKey).host.quit = true :: [] := by decide

theorem test_witness_HaltedAndStoppedAreAbsorbing :
    ({ State.reset with run := .halted } : State).run = .halted ∧
    ({ State.reset with run := .stopped } : State).run = .stopped := by decide

theorem test_witness_FetchAndDecodeFaultsHalt :
    (∃ s t, s.run = .running ∧ sampleQuit s = (false, t) ∧ s.pc.toNat > 4094) ∧
    (∃ s t w, s.run = .running ∧ sampleQuit s = (false, t) ∧ fetch s = some w ∧
      decodeWord w = .error (.unimplemented w)) :=
  ⟨⟨{ State.reset with pc := 4095 }, _, rfl, rfl, by decide⟩,
    ⟨at200 0xFFFF, _, 0xFFFF, by decide, rfl, by decide, by decide⟩⟩

/-- A waiting state with the key events given. -/
def waitState (events : List (Option Nibble)) : State :=
  { State.reset with run := .waitingForKey, waitReg := 0xF, host := { Inputs.silent with keyEvents := events } }

theorem test_witness_KeyEventEndsTheWait :
    (∃ t u, (waitState []).run = .waitingForKey ∧ sampleQuit (waitState []) = (false, t) ∧ sampleKeyEvent t = (none, u)) ∧
    (∃ t u, (waitState [some 0xF]).run = .waitingForKey ∧ sampleQuit (waitState [some 0xF]) = (false, t) ∧
      sampleKeyEvent t = (some 0xF, u)) :=
  ⟨⟨_, _, rfl, rfl, rfl⟩, ⟨_, _, rfl, rfl, rfl⟩⟩

theorem test_witness_FaultsArePrecise :
    (∃ s t, s.run ≠ .halted ∧ step s = .next t ∧ t.run = .halted ∧ fetch s = none) ∧
    (∃ s t, s.run ≠ .halted ∧ step s = .next t ∧ t.run = .halted ∧ fetch s = some 0x00EE) :=
  ⟨⟨{ State.reset with pc := 4095 }, _, by decide, rfl, by decide, by decide⟩,
    ⟨at200 0x00EE, _, by decide, rfl, by decide, by decide⟩⟩

theorem test_witness_InstructionsFaultExactlyAsTheTableSays :
    State.reset.run = .running ∧ State.reset.stackFits ∧ expectedFault .cls State.reset = .noFault ∧
    expectedFault .ret State.reset ≠ .noFault ∧
    expectedFault (.callNnn 0) { State.reset with stack := List.replicate 16 0x202 } ≠ .noFault ∧
    expectedFault (.skpVx 0) (withV [(0, 0x10)] State.reset) ≠ .noFault ∧
    expectedFault (.drwVxVyN 0 0 2) { State.reset with i := 4095 } ≠ .noFault := by decide

theorem test_witness_RunChangesOnlyAsTheTransitionTableSays :
    (∃ t, step (at200 0xF50A) = .next t ∧ t.run = .waitingForKey) ∧ dispatched (at200 0xF50A) = some (.ldVxK 5) ∧
    (∃ t, step (quitState .running) = .next t ∧ t.run = .stopped) ∧
    (∃ t, step (waitState []) = .next t ∧ t.run = .waitingForKey) ∧
    (∃ t, step (waitState [some 0]) = .next t ∧ t.run = .running) ∧
    (∃ t, step { State.reset with run := .halted } = .next t) ∧ (∃ t, step { State.reset with run := .stopped } = .next t) :=
  ⟨⟨_, rfl, by decide⟩, by decide, ⟨_, rfl, by decide⟩, ⟨_, rfl, by decide⟩, ⟨_, rfl, by decide⟩, ⟨_, rfl⟩, ⟨_, rfl⟩⟩

/-- The same statement's clause on Halted: a fault in the fetch, in decoding, and in execution, each halting. -/
theorem test_witness_faultRaised :
    (faultRaised { State.reset with pc := 4095 } ∧
      ∃ t, step { State.reset with pc := 4095 } = .next t ∧ t.run = .halted) ∧
    (faultRaised (at200 0xFFFF) ∧ ∃ t, step (at200 0xFFFF) = .next t ∧ t.run = .halted) ∧
    (faultRaised (at200 0x00EE) ∧ (at200 0x00EE).stackFits ∧ ∃ t, step (at200 0x00EE) = .next t ∧ t.run = .halted) :=
  ⟨⟨.inl (by decide), _, rfl, by decide⟩, ⟨.inr (.inl ⟨0xFFFF, by decide, by decide⟩), _, rfl, by decide⟩,
    ⟨.inr (.inr ⟨.ret, by decide, by decide⟩), by decide, _, rfl, by decide⟩⟩

theorem test_witness_SysDoesNothing :
    (fieldOp 0x00E1#16 = 0x0#4 ∧ (0x00E1#16 : Word) ≠ 0x00E0#16 ∧ (0x00E1#16 : Word) ≠ 0x00EE#16) ∧
    (∃ s t w nnn, s.run = .running ∧ sampleQuit s = (false, t) ∧ fetch s = some w ∧
      decodeWord w = .ok (.sysNnn nnn) ∧ s.cfg.timerTick = .perCycle) :=
  ⟨by decide, ⟨at200 0x0123, _, 0x0123, 0x123, by decide, rfl, by decide, by decide, by decide⟩⟩

theorem test_witness_RetPopsThePc :
    ({ State.reset with stack := [0x202] } : State).stack = 0x202 :: [] ∧ State.reset.sp = 0 := by decide

theorem test_witness_CallPushesTheAdvancedPc :
    ({ State.reset with stack := List.replicate 15 0x202 } : State).sp < State.reset.cfg.stackDepth ∧
    State.reset.cfg.stackDepth ≤ ({ State.reset with stack := List.replicate 16 0x202 } : State).sp := by decide

theorem test_witness_RetAfterCallReturns :
    State.reset.sp < State.reset.cfg.stackDepth ∧ ∃ t, exec (.callNnn 0x210) State.reset = .next t := ⟨by decide, _, rfl⟩

/-- For LdVxKkLoadsTheByte, AddVxKkAndLdVxVyWriteOneRegister, BitwiseOperationsCombineBitByBit and TimerMovesCopyAByte: a
register other than the destination. -/
theorem test_witness_another_register : (0x0#4 : Nibble) ≠ 0xF#4 ∧ (0xE#4 : Nibble) ≠ 0xF#4 := by decide

/-- For AddVxVySetsTheCarry, SubAndSubnSetTheInvertedBorrow and ShiftsMoveVyByOne: a destination other than VF, and a third
register. -/
theorem test_witness_a_third_register : (0xE#4 : Nibble) ≠ 0xF#4 ∧ (0x0#4 : Nibble) ≠ 0xE#4 ∧ (0x0#4 : Nibble) ≠ 0xF#4 := by
  decide

theorem test_witness_SeVxKkSkipsWhenEqual :
    ({ State.reset with pc := 4094 } : State).getV 0xF = 0 ∧ ({ State.reset with pc := 4094 } : State).pc.toNat = 4094 ∧
    ({ State.reset with pc := 4096 } : State).getV 0xF = 0 ∧ ({ State.reset with pc := 4096 } : State).pc.toNat = 4096 := by
  decide

/-- A state whose host answers a random byte and key levels. -/
def answering : State := { State.reset with host := { Inputs.silent with rnd := [0xA7], keys := [0x8000] } }

theorem test_witness_RndMasksTheHostsByte :
    (∃ r t, sampleRnd State.reset = (r, t)) ∧ (∃ t, sampleRnd answering = (0xA7, t)) ∧
    answering.host.rnd = 0xA7 :: [] ∧ (0x0#4 : Nibble) ≠ 0xF#4 := ⟨⟨_, _, rfl⟩, ⟨_, rfl⟩, by decide, by decide⟩

theorem test_witness_OnlySixInstructionsWriteTheFlag :
    (0xE#4 : Nibble) ≠ 0xF#4 ∧
    (∃ t, exec (.addVxVy 0xE 0xF) State.reset = .next t ∧ t.run ≠ .halted ∧ State.reset.run ≠ .halted) ∧
    (∃ t, exec (.ldVxMemI 0xE) State.reset = .next t) ∧ (∃ t, exec (.ldBVx 0xF) State.reset = .next t) :=
  ⟨by decide, ⟨_, rfl, by decide, by decide⟩, ⟨_, rfl⟩, ⟨_, rfl⟩⟩

theorem test_witness_LdBStoresThreeDigits :
    ({ State.reset with i := 4093 } : State).mem.wf = true ∧ ({ State.reset with i := 4093 } : State).i.toNat + 2 ≤ 4095 ∧
    ({ State.reset with i := 4094 } : State).i.toNat + 2 > 4095 := by decide

/-- For LdMemIStoresTheRegisters and LdVxMemILoadsTheRegisters. -/
theorem test_witness_block_transfers :
    ({ State.reset with i := 4080 } : State).mem.wf = true ∧
    ({ State.reset with i := 4080 } : State).i.toNat + (0xF#4 : Nibble).toNat ≤ 4095 ∧
    (0xF#4 : Nibble).toNat ≤ (0xF#4 : Nibble).toNat ∧
    ({ State.reset with i := 4081 } : State).i.toNat + (0xF#4 : Nibble).toNat > 4095 := by decide

theorem test_witness_StoreThenLoadRestoresTheRegisters :
    ({ State.reset with i := 4080 } : State).mem.wf = true ∧
    ({ State.reset with i := 4080 } : State).i.toNat + (0xF#4 : Nibble).toNat ≤ 4095 ∧
    ∃ t, exec (.ldMemIVx 0xF) { State.reset with i := 4080 } = .next t := ⟨by decide, by decide, _, rfl⟩

/-- Stores at the top of MEM; a fetch whose second byte alone is covered, and one at the last legal PC. -/
theorem test_witness_StoreIsSeenByTheNextFetch :
    (∃ s t u : State, s.mem.wf = true ∧ exec (.ldBVx 0xF) s = .next t ∧ u.mem = t.mem ∧ u.pc.toNat ≤ 4094 ∧
      s.i.toNat + 2 ≤ 4095 ∧ u.pc.toNat + 1 = addrI s) ∧
    (∃ s t u : State, s.mem.wf = true ∧ exec (.ldMemIVx 0xF) s = .next t ∧ u.mem = t.mem ∧ u.pc.toNat ≤ 4094 ∧
      s.i.toNat + (0xF#4 : Nibble).toNat ≤ 4095 ∧ u.pc.toNat + 1 = 4095) ∧
    (∃ s t : State, s.mem.wf = true ∧ exec (.ldMemIVx 0x1) s = .next t ∧ t.pc.toNat ≤ 4094 ∧ 1 ≤ (0x1#4 : Nibble).toNat ∧
      s.i = s.pc ∧ s.i.toNat + (0x1#4 : Nibble).toNat ≤ 4095) :=
  ⟨⟨{ State.reset with i := 4093, pc := 4092 }, _, _, by decide, rfl, rfl, by decide, by decide, by decide⟩,
    ⟨{ State.reset with i := 4080, pc := 4094 }, _, _, by decide, rfl, rfl, by decide, by decide, by decide⟩,
    ⟨{ State.reset with i := 4094, pc := 4094 }, _, by decide, rfl, by decide, by decide, by decide, by decide⟩⟩

theorem test_witness_StackAndDisplayAreNotMemory :
    (∃ t, exec (.ldBVx 0) { State.reset with i := 4093 } = .next t) ∧ (∃ t, exec (.ldMemIVx 0) State.reset = .next t) ∧
    (∃ t, exec (.callNnn 0) State.reset = .next t) ∧ (∃ t, exec .ret State.reset = .next t) ∧
    (∃ t, exec .cls State.reset = .next t) ∧ (∃ t, exec (.drwVxVyN 0 0 0xF) State.reset = .next t) :=
  ⟨⟨_, rfl⟩, ⟨_, rfl⟩, ⟨_, rfl⟩, ⟨_, rfl⟩, ⟨_, rfl⟩, ⟨_, rfl⟩⟩

theorem test_witness_OnlyFourInstructionsTouchMemory :
    (∃ ins : Instr, (∀ x y n, ins ≠ .drwVxVyN x y n) ∧ (∀ x, ins ≠ .ldBVx x) ∧ (∀ x, ins ≠ .ldMemIVx x) ∧
      (∀ x, ins ≠ .ldVxMemI x)) ∧
    (∃ t, exec (.drwVxVyN 0 0 1) State.reset = .next t) ∧ (∃ t, exec (.ldVxMemI 0) State.reset = .next t) :=
  ⟨⟨.ret, nofun, nofun, nofun, nofun⟩, ⟨_, rfl⟩, ⟨_, rfl⟩⟩

theorem test_witness_ClsTurnsEveryPixelOff : dispatched (at200 0x00E0) = some .cls := by decide

/-- The second-last clause's pixels: one the sprite covers, on and off, and one it does not cover. -/
theorem test_witness_DrwXorsTheSpriteMask :
    (0x0#4 : Nibble).toNat = 0 ∧ ({ State.reset with i := 4081 } : State).i.toNat + (0xF#4 : Nibble).toNat - 1 ≤ 4095 ∧
    ((0xF#4 : Nibble).toNat ≥ 1 ∧ ({ State.reset with i := 4082 } : State).i.toNat + (0xF#4 : Nibble).toNat - 1 > 4095) ∧
    spriteCovers (withPixel 0 0 State.reset) 0 0 1 0 0 ∧ pixel (withPixel 0 0 State.reset).fb 0 0 = true ∧
    ¬ (∃ r c, spriteCovers State.reset 0 0 0 r c ∧ pixel State.reset.fb r c = true) ∧
    ¬ spriteCovers State.reset 0 0 0 31 63 := by
  refine ⟨by decide, by decide, by decide, ⟨0, 0, by decide, by decide, by decide, by decide, by decide⟩, by decide, ?_, ?_⟩
  · rintro ⟨r, c, ⟨row, col, h, -⟩, -⟩
    exact absurd h (by simp)
  · rintro ⟨row, col, h, -⟩
    exact absurd h (by simp)

theorem test_witness_DrawingTwiceRestoresTheDisplay :
    ∃ s t u, (0x0#4 : Nibble) ≠ 0xF#4 ∧ (0x1#4 : Nibble) ≠ 0xF#4 ∧
      ((0x5#4 : Nibble).toNat = 0 ∨ s.i.toNat + (0x5#4 : Nibble).toNat - 1 ≤ 4095) ∧
      exec (.drwVxVyN 0x0 0x1 0x5) s = .next t ∧ exec (.drwVxVyN 0x0 0x1 0x5) t = .next u :=
  ⟨State.reset, _, _, by decide, by decide, by decide, rfl, rfl⟩

/-- States with a fitting record, halted and not, and a cause at each end of the table. -/
theorem test_witness_FbUpdatedAfterClsAndUnfaultedDrw :
    State.reset.recordFits ∧ (outputs State.reset).halted = false ∧ State.reset.cause = .noFault ∧
    (enterHalted .memoryOutOfRange 0xFFF 0 State.reset).recordFits ∧
    (enterHalted .memoryOutOfRange 0xFFF 0 State.reset).cause = .memoryOutOfRange := by decide

/-- R33, R270: the outputs of a fault (vector F3). -/
theorem test_outputs_of_a_fault :
    got (fun t => ((outputs t).halted, (outputs t).causeOut, (outputs t).faultAddrOut, (outputs t).faultWordOut, (outputs t).stopped))
      (placeWord 0x00EE { State.reset with pc := 0x216 }) = some (true, 2, 0x216, 0x00EE, false) := by decide

/-- Both images illegal: the model's choice (log 31). -/
theorem test_both_images_illegal :
    State.resetWith [] (List.replicate 3585 0) Config.default Inputs.silent = .error .fontLoadError := rfl

theorem test_witness_OnlyClsAndDrwTouchTheDisplay :
    ∃ ins : Instr, ins ≠ .cls ∧ ∀ x y n, ins ≠ .drwVxVyN x y n := ⟨.ret, by decide, nofun⟩

theorem test_witness_KeySkipsTestTheHostsLevel :
    (∃ l t, sampleKeys State.reset = (l, t)) ∧ (∃ t, sampleKeys answering = (0x8000, t)) ∧
    answering.host.keys = 0x8000 :: [] ∧ ((withV [(0, 0xF)] answering).getV 0).toNat ≤ 0xF ∧
    ((withV [(0, 0x10)] answering).getV 0).toNat > 0xF := ⟨⟨_, _, rfl⟩, ⟨_, rfl⟩, by decide, by decide, by decide⟩

theorem test_witness_TimerInstructionsAreTickedInTheirOwnIteration :
    State.reset.cfg.timerTick = .perCycle ∧ (at200 0xFF15).cfg.timerTick = .perCycle ∧
    dispatched (at200 0xFF15) = some (.ldDtVx 0xF) ∧
    dispatched (at200 0xFF18) = some (.ldStVx 0xF) ∧ dispatched (at200 0xFF07) = some (.ldVxDt 0xF) := by decide

theorem test_witness_SoundTimerIsReadByNoInstruction :
    ∃ i j : Instr, (∀ x, i ≠ .ldStVx x) ∧ j = .ldStVx 0xF := ⟨.cls, _, nofun, rfl⟩

theorem test_witness_OnlyCallAndRetTouchTheStack :
    (∃ ins : Instr, (∀ nnn, ins ≠ .callNnn nnn) ∧ ins ≠ .ret) ∧ (∃ t, exec (.callNnn 0xFFF) State.reset = .next t) ∧
    (∃ t, exec .ret { State.reset with stack := [0x202] } = .next t) :=
  ⟨⟨.cls, nofun, by decide⟩, ⟨_, rfl⟩, ⟨_, rfl⟩⟩

theorem test_witness_ParametersNeverChange : ∃ t, step State.reset = .next t := ⟨_, rfl⟩

theorem test_witness_ResetLeavesTheTableOfValues :
    defaultFont.length = 80 ∧ (List.replicate 3584 (0 : Byte)).length ≤ 3584 ∧
    (List.replicate 79 (0 : Byte)).length ≠ 80 ∧ (List.replicate 81 (0 : Byte)).length ≠ 80 ∧
    (List.replicate 3585 (0 : Byte)).length > 3584 :=
  ⟨by decide, by rw [List.length_replicate], by rw [List.length_replicate]; decide, by rw [List.length_replicate]; decide,
    by rw [List.length_replicate]; decide⟩

/-- Memory that lists entries, a full stack of depth 2 with saved PCs at both ends of their range, RET next. -/
def fullState : State := withMem 4095 [1] { at200 0x00EE with stack := [4096, 2], cfg := ⟨2, .perCycle⟩ }

/-- For StepsKeepMemoryCanonical, StepsKeepThePcInRange and StepsKeepStackAndRecord. -/
theorem test_witness_invariant_steps :
    fullState.mem.wf = true ∧ fullState.stackFits ∧ fullState.recordFits ∧ fullState.pcFits ∧
    ∃ t, step fullState = .next t :=
  ⟨by decide, by decide, by decide, ⟨by decide, by simp [fullState, withMem]⟩, _, rfl⟩

theorem test_witness_ReachableStatesMeetTheInvariant :
    Reachable { State.reset with mem := bootMemory defaultFont [], cfg := Config.default, host := Inputs.silent } :=
  .boot defaultFont [] Config.default Inputs.silent _ rfl rfl

end Sys2Proof.Tests
end

section
/-! PROOFS. The memory family (20_memory): the fetch's byte order, and MEM apart from the call stack and the display. -/

namespace Sys2Proof.Machine

/-- The successful branch of `fetch_cases` (20_memory R63, R65). -/
theorem fetch_of_pc_le {s : State} (h : s.pc.toNat ≤ 4094) :
    fetch s = some (joinBytes (s.readByte s.pc.toNat) (s.readByte (s.pc.toNat + 1))) := by
  obtain ⟨-, e⟩ | ⟨hgt, -⟩ := fetch_cases s
  · exact e
  · omega

/-- `readByte` looks at MEM alone. -/
theorem sameMemory_of_mem_eq {s t : State} (h : t.mem = s.mem) : SameMemory s t := by
  intro a
  rw [State.readByte, State.readByte, h]

/-! In each lemma the first case is the instruction's effect, the second its fault, where `enterHalted` keeps every field
but RUN and the fault record. -/

theorem execLdBVx_keeps_stack_fb {x : Nibble} {s t : State} (h : execLdBVx x s = .next t) :
    t.stack = s.stack ∧ t.fb = s.fb := by
  obtain ⟨-, e⟩ | ⟨-, e⟩ := execLdBVx_cases x s <;> cases e.symm.trans h
  · exact ⟨rfl, rfl⟩
  · exact ⟨enterHalted_stack .., enterHalted_fb ..⟩

theorem execLdMemIVx_keeps_stack_fb {x : Nibble} {s t : State} (h : execLdMemIVx x s = .next t) :
    t.stack = s.stack ∧ t.fb = s.fb := by
  obtain ⟨-, e⟩ | ⟨-, e⟩ := execLdMemIVx_cases x s <;> cases e.symm.trans h
  · exact ⟨rfl, rfl⟩
  · exact ⟨enterHalted_stack .., enterHalted_fb ..⟩

theorem execCallNnn_keeps_mem {nnn : Addr} {s t : State} (h : execCallNnn nnn s = .next t) : t.mem = s.mem := by
  obtain ⟨-, e⟩ | ⟨-, e⟩ := execCallNnn_cases nnn s <;> cases e.symm.trans h
  · rfl
  · exact enterHalted_mem ..

theorem execRet_keeps_mem {s t : State} (h : execRet s = .next t) : t.mem = s.mem := by
  obtain ⟨_, _, -, e⟩ | ⟨-, e⟩ := execRet_cases s <;> cases e.symm.trans h
  · rfl
  · exact enterHalted_mem ..

theorem execCls_keeps_mem {s t : State} (h : execCls s = .next t) : t.mem = s.mem := by
  cases h
  rfl

theorem execDrwVxVyN_keeps_mem {x y n : Nibble} {s t : State} (h : execDrwVxVyN x y n s = .next t) : t.mem = s.mem := by
  obtain ⟨-, e⟩ | ⟨-, -, e⟩ := execDrwVxVyN_cases x y n s <;> cases e.symm.trans h
  · exact State.setV_mem ..
  · exact enterHalted_mem ..

/-- Settles O7: at a PC up to 4094 the fetch joins the two bytes, and each byte is read back from its half of the word. -/
theorem fetchIsBigEndian : Obligations.FetchIsBigEndian := by
  intro s hpc
  have hf := fetch_of_pc_le hpc
  refine ⟨⟨_, hf, rfl, highByte_joinBytes _ _, lowByte_joinBytes _ _⟩, ?_⟩
  intro h200 h6A h05
  rw [hf, h200]
  change some (joinBytes (s.readByte 0x200) (s.readByte 0x201)) = _
  rw [h6A, h05]
  rfl

/-- Settles O41: one lemma per instruction, on its effect and on its fault. -/
theorem stackAndDisplayAreNotMemory : Obligations.StackAndDisplayAreNotMemory := by
  intro x y n nnn s t
  simp only [List.forall_mem_cons, List.not_mem_nil, false_imp_iff, implies_true, and_true]
  exact ⟨⟨execLdBVx_keeps_stack_fb, execLdMemIVx_keeps_stack_fb⟩,
    fun h => sameMemory_of_mem_eq (execCallNnn_keeps_mem h), fun h => sameMemory_of_mem_eq (execRet_keeps_mem h),
    fun h => sameMemory_of_mem_eq (execCls_keeps_mem h), fun h => sameMemory_of_mem_eq (execDrwVxVyN_keeps_mem h)⟩

end Sys2Proof.Machine
end

section
/-! PROOFS. The ALU family (42_alu): decoding by the top nibble, and writes of one register. -/

namespace Sys2Proof

theorem ne_of_fieldOp_ne {w v : Word} (h : fieldOp w ≠ fieldOp v) : w ≠ v := mt (congrArg fieldOp) h

/-- Row 6xkk of 30_encoding R96: the two exact matches that R95 tries first lie in family 0x0. -/
theorem decodeWord_of_fieldOp_six {w : Word} (h : fieldOp w = 0x6#4) :
    decodeWord w = .ok (.ldVxKk (fieldX w) (fieldKk w)) := by
  have hcls : w ≠ 0x00E0#16 := ne_of_fieldOp_ne (by rw [h]; decide)
  have hret : w ≠ 0x00EE#16 := ne_of_fieldOp_ne (by rw [h]; decide)
  simp [decodeWord, h, hcls, hret]

end Sys2Proof

namespace Sys2Proof.Machine

theorem onlyV_setV (x : Nibble) (b : Byte) (s : State) : OnlyV s (s.setV x b) :=
  ⟨rfl, sameMemory_of_mem_eq (State.setV_mem s x b)⟩

/-- Settles O26: the word's fields are the operands, and the effect is one `setV`. -/
theorem ldVxKkLoadsTheByte : Obligations.LdVxKkLoadsTheByte := by
  intro x kk s
  constructor
  · rw [decodeWord_of_fieldOp_six (fieldOp_regByte 0x6#4 x kk), fieldX_regByte, fieldKk_regByte]
  · exact ⟨s.setV x kk, rfl, getV_setV_same s x kk, fun _ hj => getV_setV_ne s kk hj, onlyV_setV x kk s⟩

end Sys2Proof.Machine
end

section
/-! PROOFS. The index family (43_index_memory): decoding by the top nibble, and writes of I. -/

namespace Sys2Proof

/-- Row Annn of 30_encoding R96: the two exact matches that R95 tries first lie in family 0x0. -/
theorem decodeWord_of_fieldOp_ten {w : Word} (h : fieldOp w = 0xA#4) : decodeWord w = .ok (.ldINnn (fieldNnn w)) := by
  have hcls : w ≠ 0x00E0#16 := ne_of_fieldOp_ne (by rw [h]; decide)
  have hret : w ≠ 0x00EE#16 := ne_of_fieldOp_ne (by rw [h]; decide)
  simp [decodeWord, h, hcls, hret]

end Sys2Proof

namespace Sys2Proof.Machine

/-- The zero extension of 30_encoding R94 keeps the address as a number. -/
theorem toNat_targetNnn (nnn : Addr) : (targetNnn nnn).toNat = nnn.toNat :=
  BitVec.toNat_setWidth_of_le (by decide)

theorem onlyI_setI (a : Word) (s : State) : OnlyI s (s.setI a) :=
  ⟨rfl, sameMemory_of_mem_eq (State.setI_mem s a)⟩

/-- Settles O34: the word's address field is the operand, and the effect is one `setI` of its zero extension. -/
theorem ldINnnLoadsTheAddress : Obligations.LdINnnLoadsTheAddress := by
  intro nnn s
  have hi : (s.setI (targetNnn nnn)).i.toNat = nnn.toNat := toNat_targetNnn nnn
  constructor
  · rw [decodeWord_of_fieldOp_ten (fieldOp_addr 0xA#4 nnn), fieldNnn_addr]
  · exact ⟨s.setI (targetNnn nnn), rfl, hi, hi.trans_lt nnn.isLt, onlyI_setI (targetNnn nnn) s⟩

end Sys2Proof.Machine
end

section
/-! PROOFS. The exceptions family (60_exceptions): the instructions that can fault, each with its effect and the fault that
takes its place. -/

namespace Sys2Proof

/-! ### Decoding families 0x2, 0xD, 0xE and 0xF (30_encoding R95, R96) -/

theorem ne_cls_ret_of_fieldOp_ne_zero {w : Word} (h : fieldOp w ≠ 0x0#4) : w ≠ 0x00E0#16 ∧ w ≠ 0x00EE#16 :=
  ⟨ne_of_fieldOp_ne h, ne_of_fieldOp_ne h⟩

theorem decodeWord_of_fieldOp_two {w : Word} (h : fieldOp w = 0x2#4) : decodeWord w = .ok (.callNnn (fieldNnn w)) := by
  obtain ⟨hcls, hret⟩ := ne_cls_ret_of_fieldOp_ne_zero (w := w) (by rw [h]; decide)
  simp [decodeWord, h, hcls, hret]

theorem decodeWord_of_fieldOp_thirteen {w : Word} (h : fieldOp w = 0xD#4) :
    decodeWord w = .ok (.drwVxVyN (fieldX w) (fieldY w) (fieldN w)) := by
  obtain ⟨hcls, hret⟩ := ne_cls_ret_of_fieldOp_ne_zero (w := w) (by rw [h]; decide)
  simp [decodeWord, h, hcls, hret]

theorem decodeWord_of_fieldOp_fourteen {w : Word} (h : fieldOp w = 0xE#4) : decodeWord w = decodeFamilyE w := by
  obtain ⟨hcls, hret⟩ := ne_cls_ret_of_fieldOp_ne_zero (w := w) (by rw [h]; decide)
  simp [decodeWord, h, hcls, hret]

theorem decodeWord_of_fieldOp_fifteen {w : Word} (h : fieldOp w = 0xF#4) : decodeWord w = decodeFamilyF w := by
  obtain ⟨hcls, hret⟩ := ne_cls_ret_of_fieldOp_ne_zero (w := w) (by rw [h]; decide)
  simp [decodeWord, h, hcls, hret]

theorem decodeWord_callNnn (nnn : Addr) : decodeWord (0x2#4 ++ nnn) = .ok (.callNnn nnn) := by
  rw [decodeWord_of_fieldOp_two (fieldOp_addr ..), fieldNnn_addr]

theorem decodeWord_drwVxVyN (x y n : Nibble) : decodeWord (0xD#4 ++ x ++ y ++ n) = .ok (.drwVxVyN x y n) := by
  rw [decodeWord_of_fieldOp_thirteen (fieldOp_regReg ..), fieldX_regReg, fieldY_regReg, fieldN_regReg]

theorem decodeWord_skpVx (x : Nibble) : decodeWord (0xE#4 ++ x ++ 0x9E#8) = .ok (.skpVx x) := by
  rw [decodeWord_of_fieldOp_fourteen (fieldOp_regByte ..)]
  simp [decodeFamilyE, fieldX_regByte, fieldKk_regByte]

theorem decodeWord_sknpVx (x : Nibble) : decodeWord (0xE#4 ++ x ++ 0xA1#8) = .ok (.sknpVx x) := by
  rw [decodeWord_of_fieldOp_fourteen (fieldOp_regByte ..)]
  simp [decodeFamilyE, fieldX_regByte, fieldKk_regByte]

theorem decodeWord_ldBVx (x : Nibble) : decodeWord (0xF#4 ++ x ++ 0x33#8) = .ok (.ldBVx x) := by
  rw [decodeWord_of_fieldOp_fifteen (fieldOp_regByte ..)]
  simp [decodeFamilyF, fieldX_regByte, fieldKk_regByte]

theorem decodeWord_ldMemIVx (x : Nibble) : decodeWord (0xF#4 ++ x ++ 0x55#8) = .ok (.ldMemIVx x) := by
  rw [decodeWord_of_fieldOp_fifteen (fieldOp_regByte ..)]
  simp [decodeFamilyF, fieldX_regByte, fieldKk_regByte]

theorem decodeWord_ldVxMemI (x : Nibble) : decodeWord (0xF#4 ++ x ++ 0x65#8) = .ok (.ldVxMemI x) := by
  rw [decodeWord_of_fieldOp_fifteen (fieldOp_regByte ..)]
  simp [decodeFamilyF, fieldX_regByte, fieldKk_regByte]

end Sys2Proof

namespace Sys2Proof.Machine

/-! ### Fault entry, block stores and the address after a block -/

/-- What `raise` leaves is the fault entry of 60_exceptions R279, with nothing else changed. -/
theorem faultedWith_enterHalted (c : Cause) (word : Word) (s : State) : FaultedWith c word s (enterHalted c s.a0 word s) :=
  rfl

theorem Memory.read_writeBytes_inside {m : Memory} (h : m.wf = true) {a k : Nat} {bytes : List Byte}
    (hb : a + bytes.length ≤ memSize) (hk : k < bytes.length) : (m.writeBytes a bytes).read (a + k) = bytes.getD k 0 := by
  rw [Memory.read_writeBytes h hb, if_pos (by omega), Nat.add_sub_cancel_left]

/-- A block store inside MEM leaves every byte outside the block. -/
theorem sameMemoryOutside_writeBytes {s t : State} (h : s.mem.wf = true) {a : Nat} {bytes : List Byte}
    (hb : a + bytes.length ≤ memSize) (ht : t.mem = s.mem.writeBytes a bytes) : SameMemoryOutside a bytes.length s t := by
  intro b hout
  rw [State.readByte, State.readByte, ht, Memory.read_writeBytes h hb, if_neg (by omega)]

theorem toNat_iAfterBlock {x : Nibble} {s : State} (h : s.i.toNat + x.toNat ≤ 4095) :
    (iAfterBlock x s).toNat = s.i.toNat + x.toNat + 1 := by
  simp only [iAfterBlock, blockSize, BitVec.toNat_add, BitVec.toNat_ofNat]
  omega

/-! ### LD B,Vx (43_index_memory R213) -/

theorem toNat_bcdDigits_getD (b : Byte) {k : Nat} (h : k < 3) :
    ((bcdDigits b).getD k 0).toNat = b.toNat / 10 ^ (2 - k) % 10 := by
  rw [bcdDigits_getD b h, BitVec.toNat_ofNat]
  omega

theorem exec_ldBVx_of_fits {x : Nibble} {s : State} (h : s.i.toNat + 2 ≤ 4095) :
    exec (.ldBVx x) s = .next { s with mem := s.mem.writeBytes (addrI s) (bcdDigits (s.getV x)) } :=
  ((execLdBVx_cases x s).resolve_right fun c => h.not_gt c.1).2

theorem exec_ldBVx_of_overruns {x : Nibble} {s : State} (h : s.i.toNat + 2 > 4095) :
    exec (.ldBVx x) s = .next (enterHalted .memoryOutOfRange s.a0 (0xF#4 ++ x ++ 0x33#8) s) :=
  ((execLdBVx_cases x s).resolve_left fun c => h.not_ge c.1).2

/-- Settles O36: the three digits are one block store at I. -/
theorem ldBStoresThreeDigits : Obligations.LdBStoresThreeDigits := by
  intro x s
  refine ⟨decodeWord_ldBVx x, fun hwf hfits => ?_,
    fun hover => ⟨_, exec_ldBVx_of_overruns hover, faultedWith_enterHalted ..⟩⟩
  have hb : addrI s + (bcdDigits (s.getV x)).length ≤ memSize := by
    simp only [addrI, bcdDigits, List.length_cons, List.length_nil, memSize]
    omega
  have digit : ∀ k < 3, ((s.mem.writeBytes (addrI s) (bcdDigits (s.getV x))).read (addrI s + k)).toNat =
      (s.getV x).toNat / 10 ^ (2 - k) % 10 := fun k hk => by
    rw [Memory.read_writeBytes_inside hwf hb hk, toNat_bcdDigits_getD _ hk]
  have hundreds : (s.getV x).toNat / 100 % 10 = (s.getV x).toNat / 100 := by
    have := (s.getV x).isLt
    omega
  exact ⟨_, exec_ldBVx_of_fits hfits, (digit 0 (by decide)).trans hundreds, digit 1 (by decide),
    (digit 2 (by decide)).trans (by simp), sameMemoryOutside_writeBytes hwf hb rfl, rfl⟩

/-! ### LD [I],Vx (43_index_memory R214) -/

theorem exec_ldMemIVx_of_fits {x : Nibble} {s : State} (h : s.i.toNat + x.toNat ≤ 4095) :
    exec (.ldMemIVx x) s = .next { s with mem := s.mem.writeBytes (addrI s) (blockRegs x s), i := iAfterBlock x s } :=
  ((execLdMemIVx_cases x s).resolve_right fun c => h.not_gt c.1).2

theorem exec_ldMemIVx_of_overruns {x : Nibble} {s : State} (h : s.i.toNat + x.toNat > 4095) :
    exec (.ldMemIVx x) s = .next (enterHalted .memoryOutOfRange s.a0 (0xF#4 ++ x ++ 0x55#8) s) :=
  ((execLdMemIVx_cases x s).resolve_left fun c => h.not_ge c.1).2

/-- Settles O37: the registers V0 to Vx are one block store at I. -/
theorem ldMemIStoresTheRegisters : Obligations.LdMemIStoresTheRegisters := by
  intro x s
  refine ⟨decodeWord_ldMemIVx x, fun hwf hfits => ?_,
    fun hover => ⟨_, exec_ldMemIVx_of_overruns hover, faultedWith_enterHalted ..⟩⟩
  have hlen := blockRegs_length x s
  have hb : addrI s + (blockRegs x s).length ≤ memSize := by
    simp only [addrI, hlen, memSize]
    omega
  have stored : ∀ k : Nibble, k.toNat ≤ x.toNat →
      (s.mem.writeBytes (addrI s) (blockRegs x s)).read (addrI s + k.toNat) = s.getV k := fun k hk => by
    rw [Memory.read_writeBytes_inside hwf hb (by omega), blockRegs_getD x k s hk]
  exact ⟨_, exec_ldMemIVx_of_fits hfits, stored, toNat_iAfterBlock hfits,
    hlen ▸ sameMemoryOutside_writeBytes hwf hb rfl, rfl⟩

/-! ### LD Vx,[I] (43_index_memory R215) -/

theorem exec_ldVxMemI_of_fits {x : Nibble} {s : State} (h : s.i.toNat + x.toNat ≤ 4095) :
    exec (.ldVxMemI x) s =
      .next ((setBlock 0 (s.mem.readBytes (addrI s) (blockSize x)) s).setI (iAfterBlock x s)) :=
  ((execLdVxMemI_cases x s).resolve_right fun c => h.not_gt c.1).2

theorem exec_ldVxMemI_of_overruns {x : Nibble} {s : State} (h : s.i.toNat + x.toNat > 4095) :
    exec (.ldVxMemI x) s = .next (enterHalted .memoryOutOfRange s.a0 (0xF#4 ++ x ++ 0x65#8) s) :=
  ((execLdVxMemI_cases x s).resolve_left fun c => h.not_ge c.1).2

/-- The registers after V0 to Vx are loaded from address `a` on. -/
theorem setBlock_readBytes_getV (a : Nat) (x k : Nibble) (s : State) :
    (setBlock 0 (s.mem.readBytes a (blockSize x)) s).getV k =
      if k.toNat ≤ x.toNat then s.readByte (a + k.toNat) else s.getV k := by
  have hx := x.isLt
  rw [setBlock_getV _ _ _ _ (by rw [Memory.readBytes_length, blockSize]; omega), Memory.readBytes_length, blockSize]
  by_cases hk : k.toNat ≤ x.toNat
  · rw [if_pos (by omega), if_pos hk, Nat.sub_zero, Memory.readBytes_getD _ (by omega), State.readByte]
  · rw [if_neg (by omega), if_neg hk]

/-- Settles O38: the load is `setBlock` of the bytes at I, which writes registers only. -/
theorem ldVxMemILoadsTheRegisters : Obligations.LdVxMemILoadsTheRegisters := by
  intro x s
  refine ⟨decodeWord_ldVxMemI x, fun hfits => ?_,
    fun hover => ⟨_, exec_ldVxMemI_of_overruns hover, faultedWith_enterHalted ..⟩⟩
  have frame := setBlock_eq 0 (s.mem.readBytes (addrI s) (blockSize x)) s
  have hmem := congrArg State.mem frame
  exact ⟨_, exec_ldVxMemI_of_fits hfits, fun k => setBlock_readBytes_getV (addrI s) x k s, toNat_iAfterBlock hfits,
    congrArg (State.setI · (iAfterBlock x s)) frame, sameMemory_of_mem_eq hmem⟩

/-! ### DRW Vx,Vy,n (44_display R231) -/

theorem exec_drwVxVyN_of_fits {x y n : Nibble} {s : State} (h : n.toNat = 0 ∨ s.i.toNat + n.toNat - 1 ≤ 4095) :
    exec (.drwVxVyN x y n) s =
      .next ({ s with fb := (drawn x y n s).fb }.setV flagReg (flagByte (drawn x y n s).hit)) :=
  ((execDrwVxVyN_cases x y n s).resolve_right fun ⟨hn, hover, _⟩ =>
    h.elim (fun h0 => by omega) (fun hle => hle.not_gt hover)).2

theorem exec_drwVxVyN_of_overruns {x y n : Nibble} {s : State} (h : n.toNat ≥ 1 ∧ s.i.toNat + n.toNat - 1 > 4095) :
    exec (.drwVxVyN x y n) s = .next (enterHalted .memoryOutOfRange s.a0 (0xD#4 ++ x ++ y ++ n) s) :=
  ((execDrwVxVyN_cases x y n s).resolve_left fun c =>
    c.1.elim (fun h0 => by omega) (fun hle => h.2.not_ge hle)).2.2

/-- The pixels DRW's loops toggle are the mask S of R231 (a). -/
theorem rowsCover_readBytes_iff (x y n : Nibble) (s : State) (r : Fin 32) (c : Fin 64) :
    rowsCover (s.getV x) (s.getV y) 0 (s.mem.readBytes (addrI s) n.toNat) r c ↔ spriteCovers s x y n r c := by
  unfold rowsCover rowCovers spriteCovers
  simp only [Memory.readBytes_length, Nat.zero_add]
  constructor
  · rintro ⟨row, hrow, hr, col, -, hcol, hbit, hc⟩
    rw [Memory.readBytes_getD _ hrow] at hbit
    exact ⟨row, col, hrow, hcol, hbit, hr, hc⟩
  · rintro ⟨row, col, hrow, hcol, hbit, hr, hc⟩
    refine ⟨row, hrow, hr, col, Nat.zero_le _, hcol, ?_, hc⟩
    rw [Memory.readBytes_getD _ hrow]
    exact hbit

/-- `plotRows_spec` for the rows DRW reads: the display and the collision, by the mask. -/
theorem drawn_spec (x y n : Nibble) (s : State) :
    (∀ r c, (spriteCovers s x y n r c → pixel (drawn x y n s).fb r c = !pixel s.fb r c) ∧
      (¬ spriteCovers s x y n r c → pixel (drawn x y n s).fb r c = pixel s.fb r c)) ∧
    ((drawn x y n s).hit = true ↔ ∃ r c, spriteCovers s x y n r c ∧ pixel s.fb r c = true) := by
  have hlen : (s.mem.readBytes (addrI s) n.toNat).length ≤ 32 := by
    have := n.isLt
    rw [Memory.readBytes_length]
    omega
  have h := plotRows_spec (s.getV x) (s.getV y) 0 _ { fb := s.fb, hit := false } hlen
  simpa only [rowsCover_readBytes_iff, Bool.false_eq_true, false_or] using h

/-- Settles O44: the display is drawn by the mask, and VF is the flag of the hit. -/
theorem drwXorsTheSpriteMask : Obligations.DrwXorsTheSpriteMask := by
  intro x y n s
  refine ⟨decodeWord_drwVxVyN x y n, fun hfits => ?_,
    fun hover => ⟨_, exec_drwVxVyN_of_overruns hover, faultedWith_enterHalted ..⟩⟩
  obtain ⟨hpixel, hhit⟩ := drawn_spec x y n s
  have flag : ({ s with fb := (drawn x y n s).fb }.setV flagReg (flagByte (drawn x y n s).hit)).getV 0xF#4 =
      flagByte (drawn x y n s).hit := getV_setV_same ..
  refine ⟨_, exec_drwVxVyN_of_fits hfits, fun r c => (hpixel r c).1, fun r c => (hpixel r c).2, fun hmet => ?_,
    fun hmissed => ?_, fun j hj => getV_setV_ne _ _ hj, rfl, sameMemory_of_mem_eq rfl⟩
  · rw [flag, hhit.2 hmet]
    rfl
  · rw [flag, Bool.eq_false_iff.2 (mt hhit.1 hmissed)]
    rfl

/-! ### RET and CALL nnn (41_flow R151, R153) -/

theorem exec_ret_of_cons {s : State} {a : Word} {rest : List Word} (h : s.stack = a :: rest) :
    exec .ret s = .next { s with pc := a, stack := rest } := by
  obtain ⟨b, tail, hcons, e⟩ | ⟨hnil, -⟩ := execRet_cases s
  · cases h.symm.trans hcons
    exact e
  · cases h.symm.trans hnil

theorem exec_ret_of_empty {s : State} (h : s.stack = []) :
    exec .ret s = .next (enterHalted .stackUnderflow s.a0 0x00EE#16 s) := by
  obtain ⟨_, _, hcons, -⟩ | ⟨-, e⟩ := execRet_cases s
  · cases h.symm.trans hcons
  · exact e

/-- Settles O20: RET by the shape of the stack. -/
theorem retPopsThePc : Obligations.RetPopsThePc := by
  refine ⟨rfl, fun s => ⟨fun a rest h => ?_, fun hsp => ?_⟩⟩
  · have hlen : rest.length + 1 = s.sp := by rw [State.sp, h, List.length_cons]
    exact ⟨_, exec_ret_of_cons h, rfl, hlen, sameMemory_of_mem_eq rfl⟩
  · exact ⟨_, exec_ret_of_empty (List.length_eq_zero_iff.1 hsp), faultedWith_enterHalted ..⟩

theorem exec_callNnn_of_room {nnn : Addr} {s : State} (h : s.sp < s.cfg.stackDepth) :
    exec (.callNnn nnn) s = .next { s with pc := targetNnn nnn, stack := s.pc :: s.stack } :=
  ((execCallNnn_cases nnn s).resolve_right fun c => h.not_ge c.1).2

theorem exec_callNnn_of_full {nnn : Addr} {s : State} (h : s.cfg.stackDepth ≤ s.sp) :
    exec (.callNnn nnn) s = .next (enterHalted .stackOverflow s.a0 (0x2#4 ++ nnn) s) :=
  ((execCallNnn_cases nnn s).resolve_left fun c => h.not_gt c.1).2

theorem stackEntry_cons_top {s t : State} {a : Word} (h : t.stack = a :: s.stack) : t.stackEntry s.sp = some a := by
  simp [State.stackEntry, State.sp, h]

theorem stackEntry_cons_older {s t : State} {a : Word} (h : t.stack = a :: s.stack) {k : Nat} (hk : k < s.sp) :
    t.stackEntry k = s.stackEntry k := by
  rw [State.stackEntry, State.stackEntry, h, List.reverse_cons, List.getElem?_append_left (by rwa [List.length_reverse])]

/-- Settles O21: CALL by whether the stack has room. -/
theorem callPushesTheAdvancedPc : Obligations.CallPushesTheAdvancedPc := by
  intro nnn s
  refine ⟨decodeWord_callNnn nnn, fun hroom => ?_,
    fun hfull => ⟨_, exec_callNnn_of_full hfull, faultedWith_enterHalted ..⟩⟩
  exact ⟨_, exec_callNnn_of_room hroom, toNat_targetNnn nnn, rfl, stackEntry_cons_top rfl,
    fun _ hk => stackEntry_cons_older rfl hk, rfl, sameMemory_of_mem_eq rfl⟩

/-! ### SKP Vx and SKNP Vx (45_keypad_timers R250, R251) -/

theorem exec_skpVx_of_key {x : Nibble} {s : State} (h : (s.getV x).toNat ≤ 0xF) :
    exec (.skpVx x) s = .next (skipIf (keyLevel (sampleKeys s).1 (s.getV x)) (sampleKeys s).2) :=
  ((execSkpVx_cases x s).resolve_right fun c => h.not_gt c.1).2

theorem exec_skpVx_of_badKey {x : Nibble} {s : State} (h : (s.getV x).toNat > 0xF) :
    exec (.skpVx x) s = .next (enterHalted .invalidKeyIndex s.a0 (0xE#4 ++ x ++ 0x9E#8) s) :=
  ((execSkpVx_cases x s).resolve_left fun c => h.not_ge c.1).2

theorem exec_sknpVx_of_key {x : Nibble} {s : State} (h : (s.getV x).toNat ≤ 0xF) :
    exec (.sknpVx x) s = .next (skipIf (!keyLevel (sampleKeys s).1 (s.getV x)) (sampleKeys s).2) :=
  ((execSknpVx_cases x s).resolve_right fun c => h.not_gt c.1).2

theorem exec_sknpVx_of_badKey {x : Nibble} {s : State} (h : (s.getV x).toNat > 0xF) :
    exec (.sknpVx x) s = .next (enterHalted .invalidKeyIndex s.a0 (0xE#4 ++ x ++ 0xA1#8) s) :=
  ((execSknpVx_cases x s).resolve_left fun c => h.not_ge c.1).2

theorem sampleKeys_of_cons {s : State} {l : BitVec 16} {rest : List (BitVec 16)} (h : s.host.keys = l :: rest) :
    (sampleKeys s).1 = l := by
  simp [sampleKeys, h]

/-- A skip right after the keys were sampled changes PC and the host's answers, nothing else. -/
theorem skipIf_sampleKeys (c : Bool) (s : State) :
    skipIf c (sampleKeys s).2 = { s with pc := if c then s.pc + 2 else s.pc, host := (sampleKeys s).2.host } := by
  rw [skipIf_eq, sampleKeys_snd]

/-- Settles O48: both skips take one sample of the keys, and test the sampled level or its negation. -/
theorem keySkipsTestTheHostsLevel : Obligations.KeySkipsTestTheHostsLevel := by
  intro x s t levels hsample
  obtain ⟨rfl, rfl⟩ : (sampleKeys s).1 = levels ∧ (sampleKeys s).2 = t := by simp [hsample]
  refine ⟨decodeWord_skpVx x, decodeWord_sknpVx x, fun _ _ => sampleKeys_of_cons, fun hkey => ⟨?_, ?_⟩,
    fun hbad => ⟨⟨_, exec_skpVx_of_badKey hbad, faultedWith_enterHalted ..⟩,
      ⟨_, exec_sknpVx_of_badKey hbad, faultedWith_enterHalted ..⟩⟩⟩
  · rw [exec_skpVx_of_key hkey, skipIf_sampleKeys]
    exact ⟨_, rfl, rfl, rfl, sameMemory_of_mem_eq rfl⟩
  · rw [exec_sknpVx_of_key hkey, skipIf_sampleKeys]
    exact ⟨_, rfl, by simp [keyLevel], rfl, sameMemory_of_mem_eq rfl⟩

end Sys2Proof.Machine
end

section
/-! PROOFS. The encoding family (30_encoding): the decoder past its two exact matches, the encoder as its inverse on both
sides, the opcode map, and the words that are no instruction. -/

namespace Sys2Proof

/-! ### The decoder by the top nibble (30_encoding R95) -/

/-- What `decodeWord` does after the two exact matches, with the top nibble as an argument of its own. -/
def decodeByFamily (op : Nibble) (w : Word) : Except DecodeError Instr :=
  if op = 0x0#4 then .ok (.sysNnn (fieldNnn w))
  else if op = 0x1#4 then .ok (.jpNnn (fieldNnn w))
  else if op = 0x2#4 then .ok (.callNnn (fieldNnn w))
  else if op = 0x3#4 then .ok (.seVxKk (fieldX w) (fieldKk w))
  else if op = 0x4#4 then .ok (.sneVxKk (fieldX w) (fieldKk w))
  else if op = 0x5#4 then .ok (.seVxVy (fieldX w) (fieldY w))
  else if op = 0x6#4 then .ok (.ldVxKk (fieldX w) (fieldKk w))
  else if op = 0x7#4 then .ok (.addVxKk (fieldX w) (fieldKk w))
  else if op = 0x8#4 then decodeFamily8 w
  else if op = 0x9#4 then .ok (.sneVxVy (fieldX w) (fieldY w))
  else if op = 0xA#4 then .ok (.ldINnn (fieldNnn w))
  else if op = 0xB#4 then .ok (.jpV0Nnn (fieldNnn w))
  else if op = 0xC#4 then .ok (.rndVxKk (fieldX w) (fieldKk w))
  else if op = 0xD#4 then .ok (.drwVxVyN (fieldX w) (fieldY w) (fieldN w))
  else if op = 0xE#4 then decodeFamilyE w
  else decodeFamilyF w

theorem decodeWord_of_inexact {w : Word} (hcls : w ≠ 0x00E0#16) (hret : w ≠ 0x00EE#16) :
    decodeWord w = decodeByFamily (fieldOp w) w := by
  rw [decodeWord, if_neg hcls, if_neg hret]
  rfl

theorem decodeWord_of_fieldOp {w : Word} {op : Nibble} (h : fieldOp w = op) (h0 : op ≠ 0x0#4) :
    decodeWord w = decodeByFamily op w := by
  obtain ⟨hcls, hret⟩ := ne_cls_ret_of_fieldOp_ne_zero (w := w) (h ▸ h0)
  rw [decodeWord_of_inexact hcls hret, h]

/-- The bottom nibble of 5xy- is ignored (30_encoding R97). -/
theorem decodeWord_seVxVy (x y n : Nibble) : decodeWord (0x5#4 ++ x ++ y ++ n) = .ok (.seVxVy x y) := by
  rw [decodeWord_of_fieldOp (fieldOp_regReg ..) (by decide)]
  simp [decodeByFamily, fieldX_regReg, fieldY_regReg]

/-- The bottom nibble of 9xy- is ignored (30_encoding R97). -/
theorem decodeWord_sneVxVy (x y n : Nibble) : decodeWord (0x9#4 ++ x ++ y ++ n) = .ok (.sneVxVy x y) := by
  rw [decodeWord_of_fieldOp (fieldOp_regReg ..) (by decide)]
  simp [decodeByFamily, fieldX_regReg, fieldY_regReg]

/-! ### The encoder is the decoder's right inverse -/

theorem fieldOp_encode (ins : Instr) : fieldOp (encode ins) = ins.family := by
  cases ins with
  | cls | ret => rfl
  | sysNnn | jpNnn | callNnn | ldINnn | jpV0Nnn => exact fieldOp_addr ..
  | seVxVy | ldVxVy | orVxVy | andVxVy | xorVxVy | addVxVy | subVxVy | shrVxVy | subnVxVy | shlVxVy | sneVxVy
  | drwVxVyN => exact fieldOp_regReg ..
  | _ => exact fieldOp_regByte ..

/-- Only `wf` keeps a SYS from being encoded as CLS or RET (30_encoding R99). -/
theorem encode_sysNnn_inexact {nnn : Addr} (h : (Instr.sysNnn nnn).wf = true) :
    encode (.sysNnn nnn) ≠ 0x00E0#16 ∧ encode (.sysNnn nnn) ≠ 0x00EE#16 := by
  simp only [Instr.wf, Bool.and_eq_true, bne_iff_ne] at h
  have hnnn : fieldNnn (encode (.sysNnn nnn)) = nnn := fieldNnn_addr ..
  constructor <;> intro e <;> rw [e] at hnnn <;> subst hnnn
  · exact h.1 rfl
  · exact h.2 rfl

/-- Within its family every instruction but CLS and RET is read back from its word, operand by operand. -/
theorem decodeByFamily_encode {ins : Instr} (hcls : ins ≠ .cls) (hret : ins ≠ .ret) :
    decodeByFamily ins.family (encode ins) = .ok ins := by
  cases ins with
  | cls => exact absurd rfl hcls
  | ret => exact absurd rfl hret
  | sysNnn | jpNnn | callNnn | ldINnn | jpV0Nnn => simp [decodeByFamily, Instr.family, encode, fieldNnn_addr]
  | ldVxVy | orVxVy | andVxVy | xorVxVy | addVxVy | subVxVy | shrVxVy | subnVxVy | shlVxVy =>
    simp [decodeByFamily, Instr.family, encode, decodeFamily8, fieldX_regReg, fieldY_regReg, fieldN_regReg]
  | seVxVy | sneVxVy | drwVxVyN =>
    simp [decodeByFamily, Instr.family, encode, fieldX_regReg, fieldY_regReg, fieldN_regReg]
  | skpVx | sknpVx => simp [decodeByFamily, Instr.family, encode, decodeFamilyE, fieldX_regByte, fieldKk_regByte]
  | seVxKk | sneVxKk | ldVxKk | addVxKk | rndVxKk =>
    simp [decodeByFamily, Instr.family, encode, fieldX_regByte, fieldKk_regByte]
  | _ => simp [decodeByFamily, Instr.family, encode, decodeFamilyF, fieldX_regByte, fieldKk_regByte]

theorem encode_inexact {ins : Instr} (hcls : ins ≠ .cls) (hret : ins ≠ .ret) (h : ins.wf = true) :
    encode ins ≠ 0x00E0#16 ∧ encode ins ≠ 0x00EE#16 := by
  cases ins with
  | cls => exact absurd rfl hcls
  | ret => exact absurd rfl hret
  | sysNnn => exact encode_sysNnn_inexact h
  | _ => exact ne_cls_ret_of_fieldOp_ne_zero (by rw [fieldOp_encode, Instr.family]; decide)

theorem decodeWord_encode {ins : Instr} (h : ins.wf = true) : decodeWord (encode ins) = .ok ins := by
  by_cases hcls : ins = .cls
  · subst hcls
    rfl
  by_cases hret : ins = .ret
  · subst hret
    rfl
  obtain ⟨ncls, nret⟩ := encode_inexact hcls hret h
  rw [decodeWord_of_inexact ncls nret, fieldOp_encode, decodeByFamily_encode hcls hret]

/-- Settles O2: the bytes reduce to the word by `decodeBytes_word`, and the word is read back by its format. -/
theorem decodeOfEncodeIsTheInstruction : Obligations.DecodeOfEncodeIsTheInstruction := by
  intro ins rest h
  have hw := decodeWord_encode h
  refine ⟨hw, ?_⟩
  rw [encodeBytes, List.cons_append, List.cons_append, List.nil_append, decodeBytes_word, hw]
  rfl

/-! ### The encoder is the decoder's left inverse, but for an ignored nibble -/

theorem fieldOp_fieldNnn (w : Word) : fieldOp w ++ fieldNnn w = w := by
  apply BitVec.eq_of_getLsbD_eq
  intro i hi
  simp only [fieldOp, fieldNnn, BitVec.getLsbD_extractLsb', BitVec.getLsbD_append]
  interval_cases i <;> rfl

theorem fieldOp_fieldX_fieldKk (w : Word) : fieldOp w ++ fieldX w ++ fieldKk w = w := by
  apply BitVec.eq_of_getLsbD_eq
  intro i hi
  simp only [fieldOp, fieldX, fieldKk, BitVec.getLsbD_extractLsb', BitVec.getLsbD_append]
  interval_cases i <;> rfl

/-- The word with its bottom nibble written 0 (30_encoding R97). -/
theorem fieldOp_fieldX_fieldY_zero (w : Word) : fieldOp w ++ fieldX w ++ fieldY w ++ 0x0#4 = w &&& 0xFFF0#16 := by
  apply BitVec.eq_of_getLsbD_eq
  intro i hi
  simp only [fieldOp, fieldX, fieldY, BitVec.getLsbD_extractLsb', BitVec.getLsbD_append, BitVec.getLsbD_and]
  interval_cases i <;> simp

theorem wf_encode_of_decodeFamily8 {w : Word} {ins : Instr} (h : decodeFamily8 w = .ok ins) :
    ins.wf = true ∧ encode ins = 0x8#4 ++ fieldX w ++ fieldY w ++ fieldN w := by
  simp only [decodeFamily8] at h
  split_ifs at h <;> cases h <;> exact ⟨rfl, by rw [‹fieldN w = _›]; rfl⟩

theorem wf_encode_of_decodeFamilyE {w : Word} {ins : Instr} (h : decodeFamilyE w = .ok ins) :
    ins.wf = true ∧ encode ins = 0xE#4 ++ fieldX w ++ fieldKk w := by
  simp only [decodeFamilyE] at h
  split_ifs at h <;> cases h <;> exact ⟨rfl, by rw [‹fieldKk w = _›]; rfl⟩

theorem wf_encode_of_decodeFamilyF {w : Word} {ins : Instr} (h : decodeFamilyF w = .ok ins) :
    ins.wf = true ∧ encode ins = 0xF#4 ++ fieldX w ++ fieldKk w := by
  simp only [decodeFamilyF] at h
  split_ifs at h <;> cases h <;> exact ⟨rfl, by rw [‹fieldKk w = _›]; rfl⟩

theorem nibble_cases (d : Nibble) :
    d = 0x0#4 ∨ d = 0x1#4 ∨ d = 0x2#4 ∨ d = 0x3#4 ∨ d = 0x4#4 ∨ d = 0x5#4 ∨ d = 0x6#4 ∨ d = 0x7#4 ∨
    d = 0x8#4 ∨ d = 0x9#4 ∨ d = 0xA#4 ∨ d = 0xB#4 ∨ d = 0xC#4 ∨ d = 0xD#4 ∨ d = 0xE#4 ∨ d = 0xF#4 := by
  decide +revert

/-- A SYS that the decoder reads is well formed: the two words it must not come from were matched before. -/
theorem wf_sysNnn_of_inexact {w : Word} (hop : fieldOp w = 0x0#4) (hcls : w ≠ 0x00E0#16) (hret : w ≠ 0x00EE#16) :
    (Instr.sysNnn (fieldNnn w)).wf = true := by
  have hw := fieldOp_fieldNnn w
  rw [hop] at hw
  simp only [Instr.wf, Bool.and_eq_true, bne_iff_ne]
  constructor <;> intro e <;> rw [e] at hw
  · exact hcls hw.symm
  · exact hret hw.symm

/-- One case per top nibble, in the order of the table of shapes (30_encoding R93). -/
theorem wf_encode_of_decodeByFamily {w : Word} {ins : Instr} (hcls : w ≠ 0x00E0#16) (hret : w ≠ 0x00EE#16)
    (h : decodeByFamily (fieldOp w) w = .ok ins) :
    ins.wf = true ∧ encode ins = if fieldOp w = 0x5#4 ∨ fieldOp w = 0x9#4 then w &&& 0xFFF0#16 else w := by
  have haddr := fieldOp_fieldNnn w
  have hbyte := fieldOp_fieldX_fieldKk w
  have hregs := word_fields w
  have hzero := fieldOp_fieldX_fieldY_zero w
  rcases nibble_cases (fieldOp w) with hop | hop | hop | hop | hop | hop | hop | hop | hop | hop | hop | hop | hop | hop |
    hop | hop <;> rw [hop] at h haddr hbyte hregs hzero ⊢
  · cases h; exact ⟨wf_sysNnn_of_inexact hop hcls hret, haddr⟩
  · cases h; exact ⟨rfl, haddr⟩
  · cases h; exact ⟨rfl, haddr⟩
  · cases h; exact ⟨rfl, hbyte⟩
  · cases h; exact ⟨rfl, hbyte⟩
  · cases h; exact ⟨rfl, hzero⟩
  · cases h; exact ⟨rfl, hbyte⟩
  · cases h; exact ⟨rfl, hbyte⟩
  · exact (wf_encode_of_decodeFamily8 h).imp_right (·.trans hregs)
  · cases h; exact ⟨rfl, hzero⟩
  · cases h; exact ⟨rfl, haddr⟩
  · cases h; exact ⟨rfl, haddr⟩
  · cases h; exact ⟨rfl, hbyte⟩
  · cases h; exact ⟨rfl, hregs⟩
  · exact (wf_encode_of_decodeFamilyE h).imp_right (·.trans hbyte)
  · exact (wf_encode_of_decodeFamilyF h).imp_right (·.trans hbyte)

/-- Settles O3: the two exact matches by evaluation, every other word by its family. -/
theorem encodeOfDecodeIsTheWord : Obligations.EncodeOfDecodeIsTheWord := by
  intro w ins h
  by_cases hcls : w = 0x00E0#16
  · subst hcls
    cases h
    exact ⟨rfl, rfl⟩
  by_cases hret : w = 0x00EE#16
  · subst hret
    cases h
    exact ⟨rfl, rfl⟩
  rw [decodeWord_of_inexact hcls hret] at h
  exact wf_encode_of_decodeByFamily hcls hret h

/-! ### The opcode map and the illegal words (30_encoding R96, R98) -/

/-- The lookup of 30_encoding R96 in a list of rows. -/
def firstMatch (rows : List OpcodeRow) (w : Word) : Except DecodeError Instr :=
  match rows.find? (fun r => w &&& r.mask == r.pattern) with
  | some r => .ok (r.build w)
  | none => .error (.unimplemented w)

theorem firstMatch_cons (r : OpcodeRow) (rows : List OpcodeRow) (w : Word) :
    firstMatch (r :: rows) w = if w &&& r.mask = r.pattern then .ok (r.build w) else firstMatch rows w := by
  by_cases h : w &&& r.mask = r.pattern <;> simp [firstMatch, h]

/-- The masks of 30_encoding R96 keep whole fields: the top nibble, and with it the bottom nibble or the low byte. -/
theorem and_F000 (w : Word) : w &&& 0xF000#16 = fieldOp w ++ 0x000#12 := by
  apply BitVec.eq_of_getLsbD_eq
  intro i hi
  simp only [fieldOp, BitVec.getLsbD_extractLsb', BitVec.getLsbD_append, BitVec.getLsbD_and]
  interval_cases i <;> simp

theorem and_F00F (w : Word) : w &&& 0xF00F#16 = fieldOp w ++ 0x0#4 ++ 0x0#4 ++ fieldN w := by
  apply BitVec.eq_of_getLsbD_eq
  intro i hi
  simp only [fieldOp, fieldN, BitVec.getLsbD_extractLsb', BitVec.getLsbD_append, BitVec.getLsbD_and]
  interval_cases i <;> simp

theorem and_F0FF (w : Word) : w &&& 0xF0FF#16 = fieldOp w ++ 0x0#4 ++ fieldKk w := by
  apply BitVec.eq_of_getLsbD_eq
  intro i hi
  simp only [fieldOp, fieldKk, BitVec.getLsbD_extractLsb', BitVec.getLsbD_append, BitVec.getLsbD_and]
  interval_cases i <;> simp

theorem and_F000_eq_iff {w : Word} {op : Nibble} : w &&& 0xF000#16 = op ++ 0x000#12 ↔ fieldOp w = op := by
  rw [and_F000]
  exact ⟨fun e => by rw [← fieldOp_addr (fieldOp w) 0x000#12, e, fieldOp_addr], fun e => by rw [e]⟩

theorem and_F00F_eq_iff {w : Word} {op n : Nibble} :
    w &&& 0xF00F#16 = op ++ 0x0#4 ++ 0x0#4 ++ n ↔ fieldOp w = op ∧ fieldN w = n := by
  rw [and_F00F]
  refine ⟨fun e => ⟨?_, ?_⟩, fun ⟨eop, en⟩ => by rw [eop, en]⟩
  · rw [← fieldOp_regReg (fieldOp w) 0x0#4 0x0#4 (fieldN w), e, fieldOp_regReg]
  · rw [← fieldN_regReg (fieldOp w) 0x0#4 0x0#4 (fieldN w), e, fieldN_regReg]

theorem and_F0FF_eq_iff {w : Word} {op : Nibble} {kk : Byte} :
    w &&& 0xF0FF#16 = op ++ 0x0#4 ++ kk ↔ fieldOp w = op ∧ fieldKk w = kk := by
  rw [and_F0FF]
  refine ⟨fun e => ⟨?_, ?_⟩, fun ⟨eop, ekk⟩ => by rw [eop, ekk]⟩
  · rw [← fieldOp_regByte (fieldOp w) 0x0#4 (fieldKk w), e, fieldOp_regByte]
  · rw [← fieldKk_regByte (fieldOp w) 0x0#4 (fieldKk w), e, fieldKk_regByte]

theorem and_FFFF (w : Word) : w &&& 0xFFFF#16 = w := BitVec.and_allOnes

section
variable {w : Word} {op : Nibble} {build : Word → Instr} {rows : List OpcodeRow} {hit miss : Except DecodeError Instr}

theorem ite_eq_firstMatch_FFFF {p : Word} (hhit : hit = .ok (build w)) (hmiss : miss = firstMatch rows w) :
    (if w = p then hit else miss) = firstMatch (⟨0xFFFF#16, p, build⟩ :: rows) w := by
  simp only [firstMatch_cons, and_FFFF, hhit, hmiss]

theorem eq_firstMatch_F000 (hop : fieldOp w = op) (hhit : hit = .ok (build w)) :
    hit = firstMatch (⟨0xF000#16, op ++ 0x000#12, build⟩ :: rows) w := by
  simp only [firstMatch_cons, and_F000_eq_iff, hop, if_true, hhit]

theorem ite_eq_firstMatch_F00F {n : Nibble} (hop : fieldOp w = op) (hhit : hit = .ok (build w))
    (hmiss : miss = firstMatch rows w) :
    (if fieldN w = n then hit else miss) =
      firstMatch (⟨0xF00F#16, op ++ 0x0#4 ++ 0x0#4 ++ n, build⟩ :: rows) w := by
  simp only [firstMatch_cons, and_F00F_eq_iff, hop, true_and, hhit, hmiss]

theorem ite_eq_firstMatch_F0FF {kk : Byte} (hop : fieldOp w = op) (hhit : hit = .ok (build w))
    (hmiss : miss = firstMatch rows w) :
    (if fieldKk w = kk then hit else miss) = firstMatch (⟨0xF0FF#16, op ++ 0x0#4 ++ kk, build⟩ :: rows) w := by
  simp only [firstMatch_cons, and_F0FF_eq_iff, hop, true_and, hhit, hmiss]

end

/-- Where every mask keeps the top nibble, only the rows of the word's own family can match. -/
theorem firstMatch_filter {rows : List OpcodeRow} (hmask : ∀ r ∈ rows, fieldOp r.mask = 0xF#4) (w : Word) :
    firstMatch rows w = firstMatch (rows.filter (fun r => fieldOp r.pattern = fieldOp w)) w := by
  induction rows with
  | nil => rfl
  | cons r rows ih =>
    obtain ⟨hr, hrows⟩ := List.forall_mem_cons.1 hmask
    rw [firstMatch_cons, ih hrows]
    by_cases hop : fieldOp r.pattern = fieldOp w
    · rw [List.filter_cons_of_pos (by simpa using hop), firstMatch_cons]
    · rw [List.filter_cons_of_neg (by simpa using hop), if_neg]
      intro e
      have hand : fieldOp (w &&& r.mask) = fieldOp w &&& fieldOp r.mask := BitVec.extractLsb'_and
      rw [hr, e] at hand
      exact hop (hand.trans BitVec.and_allOnes)

/-- One case per top nibble: a family is one row, but for 0x0, 0x8, 0xE and 0xF. -/
theorem decodeWord_eq_firstMatch (w : Word) : decodeWord w = firstMatch opcodeRows w := by
  rw [firstMatch_filter (by decide)]
  rcases nibble_cases (fieldOp w) with hop | hop | hop | hop | hop | hop | hop | hop | hop | hop | hop | hop | hop | hop |
    hop | hop <;> rw [hop]
  · refine ite_eq_firstMatch_FFFF rfl (ite_eq_firstMatch_FFFF rfl (eq_firstMatch_F000 hop ?_))
    rw [if_pos hop]
  all_goals rw [decodeWord_of_fieldOp hop (by decide)]
  · exact eq_firstMatch_F000 hop rfl
  · exact eq_firstMatch_F000 hop rfl
  · exact eq_firstMatch_F000 hop rfl
  · exact eq_firstMatch_F000 hop rfl
  · exact eq_firstMatch_F000 hop rfl
  · exact eq_firstMatch_F000 hop rfl
  · exact eq_firstMatch_F000 hop rfl
  · change decodeFamily8 w = _
    iterate 9 refine ite_eq_firstMatch_F00F hop rfl ?_
    rfl
  · exact eq_firstMatch_F000 hop rfl
  · exact eq_firstMatch_F000 hop rfl
  · exact eq_firstMatch_F000 hop rfl
  · exact eq_firstMatch_F000 hop rfl
  · exact eq_firstMatch_F000 hop rfl
  · change decodeFamilyE w = _
    iterate 2 refine ite_eq_firstMatch_F0FF hop rfl ?_
    rfl
  · change decodeFamilyF w = _
    iterate 9 refine ite_eq_firstMatch_F0FF hop rfl ?_
    rfl

/-- Settles O4: `firstMatch` is the statement's lookup. -/
theorem decoderIsFirstMatchInTheOpcodeMap : Obligations.DecoderIsFirstMatchInTheOpcodeMap :=
  decodeWord_eq_firstMatch

theorem decodeFamily8_error_iff (w : Word) :
    decodeFamily8 w = .error (.unimplemented w) ↔ fieldN w ∈ [0x8#4, 0x9#4, 0xA#4, 0xB#4, 0xC#4, 0xD#4, 0xF#4] := by
  unfold decodeFamily8
  rcases nibble_cases (fieldN w) with hn | hn | hn | hn | hn | hn | hn | hn | hn | hn | hn | hn | hn | hn | hn | hn <;>
    simp [hn]

theorem decodeFamilyE_error_iff (w : Word) :
    decodeFamilyE w = .error (.unimplemented w) ↔ fieldKk w ∉ [0x9E#8, 0xA1#8] := by
  simp [decodeFamilyE, ite_eq_iff]

theorem decodeFamilyF_error_iff (w : Word) :
    decodeFamilyF w = .error (.unimplemented w) ↔
      fieldKk w ∉ [0x07#8, 0x0A#8, 0x15#8, 0x18#8, 0x1E#8, 0x29#8, 0x33#8, 0x55#8, 0x65#8] := by
  simp [decodeFamilyF, ite_eq_iff]

/-- Only three families hold words that are no instruction. -/
theorem decodeByFamily_error_iff (w : Word) :
    decodeByFamily (fieldOp w) w = .error (.unimplemented w) ↔
      (fieldOp w = 0x8#4 ∧ decodeFamily8 w = .error (.unimplemented w)) ∨
      (fieldOp w = 0xE#4 ∧ decodeFamilyE w = .error (.unimplemented w)) ∨
      (fieldOp w = 0xF#4 ∧ decodeFamilyF w = .error (.unimplemented w)) := by
  rcases nibble_cases (fieldOp w) with hop | hop | hop | hop | hop | hop | hop | hop | hop | hop | hop | hop | hop | hop |
    hop | hop <;> simp [decodeByFamily, hop]

theorem decodeWord_error_iff (w : Word) :
    decodeWord w = .error (.unimplemented w) ↔ decodeByFamily (fieldOp w) w = .error (.unimplemented w) := by
  by_cases hcls : w = 0x00E0#16
  · subst hcls
    decide
  by_cases hret : w = 0x00EE#16
  · subst hret
    decide
  rw [decodeWord_of_inexact hcls hret]

/-- Settles O5: the refusals lie in three families; a refusal names its word by `decodeWord_error`. -/
theorem illegalWordsAreExactlyThoseListed : Obligations.IllegalWordsAreExactlyThoseListed := by
  intro w
  constructor
  · rw [decodeWord_error_iff, decodeByFamily_error_iff, decodeFamily8_error_iff, decodeFamilyE_error_iff,
      decodeFamilyF_error_iff]
  · cases h : decodeWord w with
    | ok ins => exact .inl ⟨ins, rfl⟩
    | error e => exact .inr (by rw [decodeWord_error h])

/-- Settles O1: one word per row, evaluated. -/
theorem sampleWordsDecodeAsTheTableSays : Obligations.SampleWordsDecodeAsTheTableSays := by
  unfold Obligations.SampleWordsDecodeAsTheTableSays
  decide

/-- Settles O6: a slice of a bit vector is a shift and a remainder. -/
theorem fieldsAreTheSlicesOfTheWord : Obligations.FieldsAreTheSlicesOfTheWord := by
  intro w
  have hw := w.isLt
  simp only [fieldOp, fieldX, fieldY, fieldN, fieldKk, fieldNnn, BitVec.extractLsb'_toNat, Nat.shiftRight_eq_div_pow,
    Machine.toNat_targetNnn, Nat.reducePow, Nat.div_one, and_true]
  exact Nat.mod_eq_of_lt (by omega)

end Sys2Proof
end

section
/-! PROOFS. The cycle family (40_cycle): what each stage of an iteration answers, as equations, and RUN's transitions. -/

namespace Sys2Proof.Machine

/-! ### Sampling QUIT and the host's ticks (10_state R32) -/

/-- `sampleQuit_snd` as an equation that can be substituted. -/
theorem sampleQuit_host_only {s t : State} {q : Bool} (h : sampleQuit s = (q, t)) :
    ∃ host, t = { s with host := host } := by
  have hs := sampleQuit_snd s
  rw [h] at hs
  exact ⟨_, hs⟩

theorem fetch_sampleQuit {s t : State} {q : Bool} (h : sampleQuit s = (q, t)) : fetch t = fetch s := by
  obtain ⟨host, rfl⟩ := sampleQuit_host_only h
  rfl

theorem pc_sampleQuit {s t : State} {q : Bool} (h : sampleQuit s = (q, t)) : t.pc = s.pc := by
  obtain ⟨host, rfl⟩ := sampleQuit_host_only h
  rfl

theorem sampleKeyEvent_host_only {s t : State} {e : Option Nibble} (h : sampleKeyEvent s = (e, t)) :
    ∃ host, t = { s with host := host } := by
  have hs := sampleKeyEvent_snd s
  rw [h] at hs
  exact ⟨_, hs⟩

theorem toNat_timerTicks_dt (k : Nat) (s : State) : (timerTicks k s).dt.toNat = s.dt.toNat - k := by
  induction k generalizing s with
  | zero => rfl
  | succ k ih => rw [timerTicks, ih, timerTick_dt, countDown_toNat, Nat.sub_sub, Nat.add_comm]

theorem toNat_timerTicks_st (k : Nat) (s : State) : (timerTicks k s).st.toNat = s.st.toNat - k := by
  induction k generalizing s with
  | zero => rfl
  | succ k ih => rw [timerTicks, ih, timerTick_st, countDown_toNat, Nat.sub_sub, Nat.add_comm]

/-! ### What follows an instruction, and an iteration (40_cycle R135, R141) -/

theorem endOfInstruction_of_halted {u : State} (h : u.run = .halted) : endOfInstruction u = u := if_pos h

theorem endOfInstruction_of_external {u : State} (h : u.cfg.timerTick = .external) : endOfInstruction u = u := by
  unfold endOfInstruction
  have hp : u.cfg.timerTick ≠ .perCycle := by rw [h]; decide
  rw [if_neg hp, ite_self]

theorem endOfInstruction_of_perCycle {u : State} (hr : u.run ≠ .halted) (h : u.cfg.timerTick = .perCycle) :
    endOfInstruction u = timerTick u := by
  rw [endOfInstruction, if_neg hr, if_pos h]

theorem betweenIterations_of_perCycle {s : State} (h : s.cfg.timerTick = .perCycle) : betweenIterations s = s :=
  if_neg fun ⟨he, _⟩ => by cases h.symm.trans he

theorem betweenIterations_of_inactive {s : State} (h : s.run = .halted ∨ s.run = .stopped) : betweenIterations s = s :=
  if_neg fun ⟨_, ha⟩ => by obtain h | h := h <;> rw [h] at ha <;> exact absurd ha (by decide)

theorem betweenIterations_of_external {s : State} (h : s.cfg.timerTick = .external)
    (ha : s.run = .running ∨ s.run = .waitingForKey) :
    betweenIterations s = timerTicks (sampleTicks s).1 (sampleTicks s).2 := if_pos ⟨h, ha⟩

/-- Settles O9: one tick takes one from each timer, by `countDown_toNat`. -/
theorem tickFollowsAnUnfaultedInstruction : Obligations.TickFollowsAnUnfaultedInstruction := fun u =>
  ⟨endOfInstruction_of_halted, endOfInstruction_of_external, fun hr h =>
    ⟨timerTick u, endOfInstruction_of_perCycle hr h, countDown_toNat u.dt, countDown_toNat u.st, rfl⟩⟩

/-- Settles O10: the ticks of an iteration are one answer of the host, counted down by `toNat_timerTicks_dt`. -/
theorem hostTicksFallBetweenIterations : Obligations.HostTicksFallBetweenIterations := by
  intro s
  refine ⟨fun h => h.elim betweenIterations_of_perCycle betweenIterations_of_inactive,
    fun he ha => ⟨fun hnil => ?_, fun k rest hcons => ⟨_, rfl, ?_⟩⟩⟩
  · have hsample : sampleTicks s = (0, s) := by rw [sampleTicks, hnil]
    rw [betweenIterations_of_external he ha, hsample]
    rfl
  · have hsample : sampleTicks s = (k, { s with host := { s.host with ticks := rest } }) := by rw [sampleTicks, hcons]
    rw [betweenIterations_of_external he ha, hsample]
    exact ⟨toNat_timerTicks_dt .., toNat_timerTicks_st .., timerTicks_eq ..⟩

/-! ### The step by RUN and QUIT (40_cycle R130, R131, R136, R137) -/

theorem step_of_inactive {s : State} (h : s.run = .halted ∨ s.run = .stopped) : step s = .next s := by
  have hi : iteration s = .next s := by obtain h | h := h <;> rw [iteration, h]
  rw [step, cycle, hi, onNext, betweenIterations_of_inactive h]

theorem step_of_quit {s t : State} (ha : s.run = .running ∨ s.run = .waitingForKey) (hq : sampleQuit s = (true, t)) :
    step s = .next { t with run := .stopped } := by
  have hi : iteration s = .next { t with run := .stopped } := by obtain h | h := ha <;> rw [iteration, h, hq]
  rw [step, cycle, hi, onNext, betweenIterations_of_inactive (.inr rfl)]

theorem step_of_running {s t : State} (hr : s.run = .running) (hq : sampleQuit s = (false, t)) :
    step s = onNext betweenIterations (runningIteration t) := by
  rw [step, cycle, iteration, hr, hq]

theorem step_of_waiting {s t : State} (hr : s.run = .waitingForKey) (hq : sampleQuit s = (false, t)) :
    step s = .next (betweenIterations (waitingIteration t)) := by
  rw [step, cycle, iteration, hr, hq]
  rfl

/-- Settles O12: neither state samples or ticks. -/
theorem haltedAndStoppedAreAbsorbing : Obligations.HaltedAndStoppedAreAbsorbing := fun _ => step_of_inactive

/-- Settles O11: the listed answer is the one sampled. -/
theorem quitStopsBeforeAnythingElse : Obligations.QuitStopsBeforeAnythingElse := by
  intro s rest ha hcons
  have hsample : sampleQuit s = (true, { s with host := { s.host with quit := rest } }) := by rw [sampleQuit, hcons]
  exact step_of_quit ha hsample

/-! ### The stages of a Running iteration (40_cycle R132 to R135) -/

theorem runningIteration_of_fetch_none {s : State} (hf : fetch s = none) :
    runningIteration s = .next (enterHalted .memoryOutOfRange s.pc 0 s) := by
  simp only [runningIteration, hf]

theorem runningIteration_of_decode_error {s : State} {w : Word} {e : DecodeError} (hf : fetch s = some w)
    (hd : decodeWord w = .error e) :
    runningIteration s = .next (enterHalted .unimplementedOpcode s.pc w (advancePc s)) := by
  simp only [runningIteration, hf, hd]

theorem runningIteration_of_decode {s : State} {w : Word} {ins : Instr} (hf : fetch s = some w)
    (hd : decodeWord w = .ok ins) : runningIteration s = onNext endOfInstruction (exec ins (advancePc s)) := by
  simp only [runningIteration, hf, hd]

section
variable {s t : State} (hr : s.run = .running) (hq : sampleQuit s = (false, t))
include hr hq

theorem step_of_fetch_none (hf : fetch s = none) : step s = .next (enterHalted .memoryOutOfRange s.pc 0 t) := by
  rw [step_of_running hr hq, runningIteration_of_fetch_none ((fetch_sampleQuit hq).trans hf), onNext, pc_sampleQuit hq,
    betweenIterations_of_inactive (.inl rfl)]

theorem step_of_decode_error {w : Word} {e : DecodeError} (hf : fetch s = some w) (hd : decodeWord w = .error e) :
    step s = .next (enterHalted .unimplementedOpcode s.pc w (advancePc t)) := by
  rw [step_of_running hr hq, runningIteration_of_decode_error ((fetch_sampleQuit hq).trans hf) hd, onNext,
    pc_sampleQuit hq, betweenIterations_of_inactive (.inl rfl)]

theorem step_of_decode {u : State} {w : Word} {ins : Instr} (hf : fetch s = some w) (hd : decodeWord w = .ok ins)
    (he : exec ins (advancePc t) = .next u) : step s = .next (betweenIterations (endOfInstruction u)) := by
  rw [step_of_running hr hq, runningIteration_of_decode ((fetch_sampleQuit hq).trans hf) hd, he, onNext, onNext]

theorem step_of_decode_perCycle {u : State} {w : Word} {ins : Instr} (hf : fetch s = some w)
    (hd : decodeWord w = .ok ins) (he : exec ins (advancePc t) = .next u) (hrun : u.run ≠ .halted)
    (hcfg : u.cfg.timerTick = .perCycle) : step s = .next (timerTick u) := by
  rw [step_of_decode hr hq hf hd he, endOfInstruction_of_perCycle hrun hcfg,
    betweenIterations_of_perCycle (s := timerTick u) hcfg]

end

theorem decodeWord_joinBytes {hi lo : Byte} {ins : Instr} (h : decodeBytes [hi, lo] = .ok (ins, [])) :
    decodeWord (joinBytes hi lo) = .ok ins := by
  have hw := decodeBytes_word (joinBytes hi lo) []
  rw [highByte_joinBytes, lowByte_joinBytes, h] at hw
  cases hd : decodeWord (joinBytes hi lo) with
  | ok i =>
    rw [hd] at hw
    cases hw
    rfl
  | error e =>
    rw [hd] at hw
    cases hw

/-- Settles O8: the two bytes at PC are the word fetched. -/
theorem stepRunsTheDecodedInstruction : Obligations.StepRunsTheDecodedInstruction := by
  intro s t u ins hr hq hpc hd he
  obtain ⟨host, rfl⟩ := sampleQuit_host_only hq
  exact step_of_decode hr hq (fetch_of_pc_le hpc) (decodeWord_joinBytes hd) he

theorem fetch_of_pc_gt {s : State} (h : s.pc.toNat > 4094) : fetch s = none :=
  ((fetch_cases s).resolve_left fun c => h.not_ge c.1).2

/-- Settles O13: both faults are entered before anything is dispatched. -/
theorem fetchAndDecodeFaultsHalt : Obligations.FetchAndDecodeFaultsHalt := by
  intro s t hr hq
  refine ⟨fun hpc => step_of_fetch_none hr hq (fetch_of_pc_gt hpc), fun w hf hd => ?_⟩
  rw [step_of_decode_error hr hq hf hd]
  obtain ⟨host, rfl⟩ := sampleQuit_host_only hq
  rfl

/-- Settles O19: the word's family is decoded by `decodeWord_of_inexact`; SYS itself is the identity. -/
theorem sysDoesNothing : Obligations.SysDoesNothing := by
  refine ⟨fun w hop hcls hret => ?_, fun _ _ => rfl, fun s t w nnn hr hq hf hd hcfg => ?_⟩
  · rw [decodeWord_of_inexact hcls hret, hop]
    rfl
  · obtain ⟨host, rfl⟩ := sampleQuit_host_only hq
    have hrun : s.run ≠ .halted := by rw [hr]; decide
    exact ⟨_, step_of_decode_perCycle hr hq hf hd rfl hrun hcfg, rfl, countDown_toNat _, countDown_toNat _⟩

/-! ### Waiting for a key (40_cycle R136) -/

theorem waitingIteration_of_none {s t : State} (h : sampleKeyEvent s = (none, t)) : waitingIteration s = t := by
  rw [waitingIteration, h]

theorem waitingIteration_of_some {s t : State} {k : Nibble} (h : sampleKeyEvent s = (some k, t)) :
    waitingIteration s = { t.setV t.waitReg (k.zeroExtend 8) with run := .running } := by
  rw [waitingIteration, h]

/-- Settles O14: the event is zero-extended into V[WAIT_REG]. -/
theorem keyEventEndsTheWait : Obligations.KeyEventEndsTheWait := by
  intro s t hr hq
  rw [step_of_waiting hr hq]
  obtain ⟨host, rfl⟩ := sampleQuit_host_only hq
  refine ⟨fun u he => ?_, fun k u he => ?_⟩ <;> obtain ⟨host', rfl⟩ := sampleKeyEvent_host_only he
  · rw [waitingIteration_of_none he]
    exact ⟨rfl, rfl⟩
  · rw [waitingIteration_of_some he]
    refine ⟨_, rfl, rfl, ?_, fun j hj => getV_setV_ne s _ hj⟩
    exact (congrArg BitVec.toNat (getV_setV_same s s.waitReg _)).trans (BitVec.toNat_setWidth_of_le (by decide))

end Sys2Proof.Machine
end

section
/-! PROOFS. The fault table (60_exceptions R270) and what follows from it: precise faults, RUN's transitions, FB_UPDATED. -/

namespace Sys2Proof.Machine

/-! ### The fault table, instruction by instruction -/

@[simp] theorem skipIf_run (c : Bool) (s : State) : (skipIf c s).run = s.run := by rw [skipIf_eq]
@[simp] theorem sampleKeys_run (s : State) : (sampleKeys s).2.run = s.run := by rw [sampleKeys_snd]
@[simp] theorem sampleRnd_run (s : State) : (sampleRnd s).2.run = s.run := by rw [sampleRnd_snd]
@[simp] theorem setBlock_run (k : Nat) (bytes : List Byte) (s : State) : (setBlock k bytes s).run = s.run := by
  rw [setBlock_eq]

/-- `ins` meets its row of the fault table: it raises the row's fault, with the record of R279, or it does not halt. -/
def MeetsFaultRow (ins : Instr) (s : State) : Prop :=
  (expectedFault ins s ≠ .noFault ∧ exec ins s = .next (enterHalted (expectedFault ins s) s.a0 (encode ins) s)) ∨
    (expectedFault ins s = .noFault ∧ ∃ t, exec ins s = .next t ∧ (t.run = s.run ∨ t.run = .waitingForKey))

/-- An instruction with a row in the table, by the row's condition. -/
theorem meetsFaultRow_of_row {ins : Instr} {s : State} {c : Cause} {p : Prop} [Decidable p]
    (hrow : expectedFault ins s = if p then c else .noFault) (hc : c ≠ .noFault)
    (hfault : p → exec ins s = .next (enterHalted c s.a0 (encode ins) s))
    (hok : ¬p → ∃ t, exec ins s = .next t ∧ t.run = s.run) : MeetsFaultRow ins s := by
  by_cases hp : p
  · rw [if_pos hp] at hrow
    exact .inl ⟨by rwa [hrow], by rw [hrow, hfault hp]⟩
  · rw [if_neg hp] at hrow
    exact .inr ⟨hrow, (hok hp).imp fun _ ⟨he, hr⟩ => ⟨he, .inl hr⟩⟩

/-- An instruction without a row in the table. -/
theorem meetsFaultRow_of_noRow {ins : Instr} {s t : State} (hrow : expectedFault ins s = .noFault)
    (he : exec ins s = .next t) (hr : t.run = s.run) : MeetsFaultRow ins s := .inr ⟨hrow, t, he, .inl hr⟩

/-- Only CALL's row needs a stack within its depth: the table names a full stack, the push any stack that is not below. -/
theorem meetsFaultRow (ins : Instr) (s : State) (hfit : ∀ nnn, ins = .callNnn nnn → s.stackFits) :
    MeetsFaultRow ins s := by
  cases ins with
  | ret =>
    refine meetsFaultRow_of_row rfl (by decide) (fun h => exec_ret_of_empty (List.length_eq_zero_iff.1 h)) fun h => ?_
    obtain ⟨a, rest, hcons⟩ := List.exists_cons_of_ne_nil (mt List.length_eq_zero_iff.2 h)
    exact ⟨_, exec_ret_of_cons hcons, rfl⟩
  | callNnn nnn =>
    have hle := hfit nnn rfl
    exact meetsFaultRow_of_row rfl (by decide) (fun h => exec_callNnn_of_full h.ge)
      fun h => ⟨_, exec_callNnn_of_room (lt_of_le_of_ne hle h), rfl⟩
  | skpVx x =>
    exact meetsFaultRow_of_row rfl (by decide) exec_skpVx_of_badKey
      fun h => ⟨_, exec_skpVx_of_key (not_lt.1 h), by simp⟩
  | sknpVx x =>
    exact meetsFaultRow_of_row rfl (by decide) exec_sknpVx_of_badKey
      fun h => ⟨_, exec_sknpVx_of_key (not_lt.1 h), by simp⟩
  | drwVxVyN x y n =>
    exact meetsFaultRow_of_row rfl (by decide) exec_drwVxVyN_of_overruns
      fun h => ⟨_, exec_drwVxVyN_of_fits (by omega), rfl⟩
  | ldBVx x =>
    exact meetsFaultRow_of_row rfl (by decide) exec_ldBVx_of_overruns
      fun h => ⟨_, exec_ldBVx_of_fits (not_lt.1 h), rfl⟩
  | ldMemIVx x =>
    exact meetsFaultRow_of_row rfl (by decide) exec_ldMemIVx_of_overruns
      fun h => ⟨_, exec_ldMemIVx_of_fits (not_lt.1 h), rfl⟩
  | ldVxMemI x =>
    exact meetsFaultRow_of_row rfl (by decide) exec_ldVxMemI_of_overruns
      fun h => ⟨_, exec_ldVxMemI_of_fits (not_lt.1 h), by simp⟩
  | rndVxKk x kk => exact meetsFaultRow_of_noRow rfl (execRndVxKk_eq x kk s) (by simp)
  | ldVxK x => exact .inr ⟨rfl, _, rfl, .inr rfl⟩
  | seVxKk | sneVxKk | seVxVy | sneVxVy => exact meetsFaultRow_of_noRow rfl rfl (skipIf_run _ s)
  | _ => exact meetsFaultRow_of_noRow rfl rfl rfl

theorem run_ne_halted_of_meets {s t : State} (hs : s.run = .running) (ht : t.run = s.run ∨ t.run = .waitingForKey) :
    t.run ≠ .halted := by
  obtain h | h := ht <;> rw [h]
  · rw [hs]
    decide
  · decide

theorem exec_halts_iff {ins : Instr} {s t : State} (hs : s.run = .running)
    (hfit : ∀ nnn, ins = .callNnn nnn → s.stackFits) (he : exec ins s = .next t) :
    t.run = .halted ↔ expectedFault ins s ≠ .noFault := by
  obtain ⟨hf, e⟩ | ⟨hf, u, e, hr⟩ := meetsFaultRow ins s hfit <;> cases he.symm.trans e
  · exact iff_of_true rfl hf
  · exact iff_of_false (run_ne_halted_of_meets hs hr) (not_not.2 hf)

/-- Settles O16: every instruction meets its row of the table. -/
theorem instructionsFaultExactlyAsTheTableSays : Obligations.InstructionsFaultExactlyAsTheTableSays := by
  intro ins s hs hfit
  obtain ⟨t, he⟩ := exec_next ins s
  refine ⟨t, he, exec_halts_iff hs (fun _ _ => hfit) he, fun hf => ?_⟩
  obtain ⟨-, e⟩ | ⟨hno, -⟩ := meetsFaultRow ins s fun _ _ => hfit
  · cases he.symm.trans e
    rfl
  · exact absurd hno hf

/-! ### Totality of the step, and the step of a dispatched instruction -/

/-- Settles O17: the iteration's stages one by one; every instruction answers by `exec_next`. -/
theorem everyStepAnswersANextState : Obligations.EveryStepAnswersANextState := by
  intro s
  suffices h : ∃ t, iteration s = .next t by
    obtain ⟨t, e⟩ := h
    exact ⟨betweenIterations t, by rw [step, cycle, e, onNext]⟩
  obtain ⟨-, e⟩ | ⟨-, -, e⟩ | ⟨-, -, e⟩ | ⟨-, -, e⟩ := iteration_cases s
  · exact ⟨_, e⟩
  · exact ⟨_, e⟩
  · rw [e]
    obtain ⟨-, e⟩ | ⟨_, _, -, -, e⟩ | ⟨_, ins, -, -, e⟩ := runningIteration_cases (sampleQuit s).2
    · exact ⟨_, e⟩
    · exact ⟨_, e⟩
    · obtain ⟨u, eu⟩ := exec_next ins (advancePc (sampleQuit s).2)
      exact ⟨endOfInstruction u, by rw [e, eu, onNext]⟩
  · exact ⟨_, e⟩

theorem decodeWord_of_toOption {w : Word} {ins : Instr} (h : (decodeWord w).toOption = some ins) :
    decodeWord w = .ok ins := by
  cases hd : decodeWord w <;> rw [hd] at h <;> cases h
  rfl

theorem dispatched_eq_some {s : State} {ins : Instr} (h : dispatched s = some ins) :
    s.run = .running ∧ (sampleQuit s).1 = false ∧ ∃ w, fetch s = some w ∧ decodeWord w = .ok ins := by
  unfold dispatched at h
  split at h
  case isTrue hrun =>
    split at h
    case h_1 w hf => exact ⟨hrun.1, hrun.2, w, hf, decodeWord_of_toOption h⟩
    case h_2 => cases h
  case isFalse => cases h

theorem step_of_dispatched {s u : State} {ins : Instr} (h : dispatched s = some ins)
    (he : exec ins (advancePc (sampleQuit s).2) = .next u) : step s = .next (betweenIterations (endOfInstruction u)) := by
  obtain ⟨hr, hq, w, hf, hd⟩ := dispatched_eq_some h
  exact step_of_decode hr (Prod.ext hq rfl) hf hd he

/-- The state an instruction is dispatched in: PC advanced, the QUIT answer taken. -/
theorem dispatch_state (s : State) :
    advancePc (sampleQuit s).2 = { s with pc := s.pc + 2, host := (sampleQuit s).2.host } := by
  rw [sampleQuit_snd]
  rfl

theorem expectedFault_dispatch (ins : Instr) (s : State) :
    expectedFault ins (advancePc (sampleQuit s).2) = expectedFault ins s := by
  rw [dispatch_state]
  cases ins <;> rfl

@[simp] theorem betweenIterations_run (s : State) : (betweenIterations s).run = s.run := by rw [betweenIterations_eq]
@[simp] theorem betweenIterations_waitReg (s : State) : (betweenIterations s).waitReg = s.waitReg := by
  rw [betweenIterations_eq]
@[simp] theorem endOfInstruction_run (s : State) : (endOfInstruction s).run = s.run := by rw [endOfInstruction_eq]
@[simp] theorem endOfInstruction_waitReg (s : State) : (endOfInstruction s).waitReg = s.waitReg := by
  rw [endOfInstruction_eq]

/-- Whether a step halts, when it dispatches an instruction. -/
theorem step_halts_iff {s t : State} {ins : Instr} (h : dispatched s = some ins) (ht : step s = .next t)
    (hfit : ∀ nnn, ins = .callNnn nnn → s.stackFits) : t.run = .halted ↔ expectedFault ins s ≠ .noFault := by
  obtain ⟨hr, -⟩ := dispatched_eq_some h
  obtain ⟨u, hu⟩ := exec_next ins (advancePc (sampleQuit s).2)
  cases (step_of_dispatched h hu).symm.trans ht
  rw [betweenIterations_run, endOfInstruction_run, ← expectedFault_dispatch]
  rw [dispatch_state] at hu ⊢
  exact exec_halts_iff hr hfit hu

/-! ### Precise faults (40_cycle R138) -/

/-- The encoder gives the fetched word back, but for the two families that ignore a nibble. -/
theorem encode_of_decodeWord {w : Word} {ins : Instr} (hd : decodeWord w = .ok ins) (hse : ∀ x y, ins ≠ .seVxVy x y)
    (hsne : ∀ x y, ins ≠ .sneVxVy x y) : encode ins = w := by
  obtain ⟨-, he⟩ := encodeOfDecodeIsTheWord w ins hd
  rw [he, if_neg]
  rintro (hop | hop) <;> rw [decodeWord_of_fieldOp hop (by decide)] at hd <;> cases hd
  · exact hse _ _ rfl
  · exact hsne _ _ rfl

/-- What an instruction does to RUN. -/
theorem exec_run_cases {ins : Instr} {s t : State} (he : exec ins s = .next t) :
    (t = enterHalted t.cause s.a0 (encode ins) s ∧ t.cause ≠ .noFault) ∨ t.run = s.run ∨
      ∃ x, ins = .ldVxK x ∧ t.run = .waitingForKey ∧ t.waitReg = x := by
  obtain ⟨-, -, hfault | ⟨-, -, -, hrun, hwait, -⟩⟩ := exec_cases he
  · exact .inl hfault
  by_cases hk : ∃ x, ins = .ldVxK x
  · obtain ⟨x, hx⟩ := hk
    exact .inr (.inr ⟨x, hx, hwait x hx⟩)
  · exact .inr (.inl (hrun fun x hx => hk ⟨x, hx⟩))

/-- An instruction that halts did nothing else. -/
theorem exec_halted {ins : Instr} {s t : State} (he : exec ins s = .next t) (hs : s.run ≠ .halted)
    (ht : t.run = .halted) : t = enterHalted t.cause s.a0 (encode ins) s ∧ t.cause ≠ .noFault := by
  obtain hfault | hrun | ⟨_, -, hrun, -⟩ := exec_run_cases he
  · exact hfault
  · exact absurd (hrun.symm.trans ht) hs
  · cases hrun.symm.trans ht

/-- An instruction with an ignored nibble never halts, so the word in a fault record is the word fetched (log 11). -/
theorem encode_of_halted {ins : Instr} {s t : State} {w : Word} (hd : decodeWord w = .ok ins)
    (he : exec ins s = .next t) (hs : s.run ≠ .halted) (ht : t.run = .halted) : encode ins = w := by
  refine encode_of_decodeWord hd ?_ ?_ <;> rintro x y rfl <;> cases he <;> rw [skipIf_run] at ht <;> exact hs ht

/-- Settles O15: of the cases of `step_cases`, three can halt: the fetch, the decoder, and an instruction. -/
theorem faultsArePrecise : Obligations.FaultsArePrecise := by
  intro s t hs hstep ht
  obtain ⟨-, rfl⟩ | ⟨-, -, rfl⟩ | ⟨-, -, hf, -, rfl⟩ | ⟨-, -, -, w, e, hf, -, rfl⟩ | ⟨hr, -, -, ins, u, hdis, hu, -, rfl⟩ |
    ⟨-, -, r, hr, e⟩ := step_cases hstep
  · exact absurd ht hs
  · cases ht
  · rw [sampleQuit_snd]
    exact ⟨rfl, nofun, .inl ⟨hf, rfl, rfl⟩⟩
  · rw [dispatch_state]
    exact ⟨rfl, nofun, .inr ⟨w, hf, rfl, rfl⟩⟩
  · rw [betweenIterations_run, endOfInstruction_run] at ht
    rw [endOfInstruction_of_halted ht, betweenIterations_of_inactive (.inl ht)]
    obtain ⟨-, -, w, hf, hd⟩ := dispatched_eq_some hdis
    rw [dispatch_state] at hu
    obtain ⟨e, hc⟩ := exec_halted hu hs ht
    have hpc : s.pc + 2 - 2 = s.pc := BitVec.add_sub_cancel ..
    rw [encode_of_halted hd hu hs ht, State.a0, hpc] at e
    rw [e]
    exact ⟨rfl, hc, .inr ⟨w, hf, rfl, rfl⟩⟩
  · rw [e] at ht
    obtain rfl | rfl := hr <;> cases ht

/-! ### RUN's transitions (10_state R29) -/

/-- What a step does to RUN, by the state it starts from. -/
theorem step_run_cases {s t : State} (hstep : step s = .next t) :
    ((s.run = .halted ∨ s.run = .stopped) ∧ t.run = s.run) ∨
      ((s.run = .running ∨ s.run = .waitingForKey) ∧ (sampleQuit s).1 = true ∧ t.run = .stopped) ∨
      (s.run = .running ∧ (sampleQuit s).1 = false ∧
        (t.run = .halted ∨ t.run = .running ∨
          ∃ x, dispatched s = some (.ldVxK x) ∧ t.run = .waitingForKey ∧ t.waitReg = x)) ∨
      (s.run = .waitingForKey ∧ (sampleQuit s).1 = false ∧ (t.run = .waitingForKey ∨ t.run = .running)) := by
  obtain ⟨hi, rfl⟩ | ⟨ha, hq, rfl⟩ | ⟨hr, hq, -, -, rfl⟩ | ⟨hr, hq, -, _, _, -, -, rfl⟩ |
    ⟨hr, hq, -, ins, u, hdis, hu, -, rfl⟩ | ⟨hr, hq, r, hw, e⟩ := step_cases hstep
  · exact .inl ⟨hi, rfl⟩
  · exact .inr (.inl ⟨ha, hq, rfl⟩)
  · exact .inr (.inr (.inl ⟨hr, hq, .inl rfl⟩))
  · exact .inr (.inr (.inl ⟨hr, hq, .inl rfl⟩))
  · refine .inr (.inr (.inl ⟨hr, hq, ?_⟩))
    rw [betweenIterations_run, endOfInstruction_run, betweenIterations_waitReg, endOfInstruction_waitReg]
    rw [dispatch_state] at hu
    obtain ⟨e, -⟩ | hrun | ⟨x, rfl, hwait⟩ := exec_run_cases hu
    · exact .inl (congrArg State.run e)
    · exact .inr (.inl (hrun.trans hr))
    · exact .inr (.inr ⟨x, hdis, hwait⟩)
  · refine .inr (.inr (.inr ⟨hr, hq, ?_⟩))
    rw [e]
    exact hw

section
variable {s t : State} (hstep : step s = .next t)
include hstep

theorem step_keeps_inactive (hs : s.run = .halted ∨ s.run = .stopped) : t.run = s.run := by
  cases (step_of_inactive hs).symm.trans hstep
  rfl

theorem step_stops_iff (ha : s.run = .running ∨ s.run = .waitingForKey) :
    t.run = .stopped ↔ (sampleQuit s).1 = true := by
  obtain ⟨hi, -⟩ | ⟨-, hq, ht⟩ | ⟨-, hq, ht⟩ | ⟨-, hq, ht⟩ := step_run_cases hstep
  · exfalso
    obtain h | h := ha <;> rw [h] at hi <;> exact absurd hi (by decide)
  · exact iff_of_true ht hq
  · refine iff_of_false ?_ (by rw [hq]; decide)
    obtain h | h | ⟨_, -, h, -⟩ := ht <;> rw [h] <;> decide
  · refine iff_of_false ?_ (by rw [hq]; decide)
    obtain h | h := ht <;> rw [h] <;> decide

theorem step_waits_only_by_ldVxK (hr : s.run = .running) (ht : t.run = .waitingForKey) :
    ∃ x, dispatched s = some (.ldVxK x) ∧ t.waitReg = x := by
  obtain ⟨hi, -⟩ | ⟨-, -, h⟩ | ⟨-, -, h | h | ⟨x, hdis, -, hx⟩⟩ | ⟨h, -⟩ := step_run_cases hstep
  · rw [hr] at hi
    exact absurd hi (by decide)
  · cases h.symm.trans ht
  · cases h.symm.trans ht
  · cases h.symm.trans ht
  · exact ⟨x, hdis, hx⟩
  · cases hr.symm.trans h

theorem step_of_ldVxK {x : Nibble} (hdis : dispatched s = some (.ldVxK x)) :
    t.run = .waitingForKey ∧ t.waitReg = x := by
  cases (step_of_dispatched hdis rfl).symm.trans hstep
  rw [betweenIterations_run, endOfInstruction_run, betweenIterations_waitReg, endOfInstruction_waitReg]
  exact ⟨rfl, rfl⟩

theorem step_halts_iff_faultRaised (hr : s.run = .running) (hfit : s.stackFits) :
    t.run = .halted ↔ (sampleQuit s).1 = false ∧ faultRaised s := by
  cases hq : (sampleQuit s).1 with
  | true =>
    cases (step_of_quit (.inl hr) (Prod.ext hq rfl)).symm.trans hstep
    exact iff_of_false nofun nofun
  | false =>
    rw [eq_self, true_and, faultRaised]
    cases hf : fetch s with
    | none =>
      cases (step_of_fetch_none hr (Prod.ext hq rfl) hf).symm.trans hstep
      exact iff_of_true rfl (.inl rfl)
    | some w =>
      cases hd : decodeWord w with
      | error e =>
        cases (step_of_decode_error hr (Prod.ext hq rfl) hf hd).symm.trans hstep
        exact iff_of_true rfl (.inr (.inl ⟨w, rfl, by rw [hd, decodeWord_error hd]⟩))
      | ok ins =>
        have hdis : dispatched s = some ins := by
          rw [dispatched, if_pos ⟨hr, hq⟩]
          simp only [hf, hd]
          rfl
        rw [step_halts_iff hdis hstep fun _ _ => hfit]
        simp [hdis, hd]

/-- A step from WaitingForKey with QUIT low, by the event sampled. -/
theorem step_run_of_waiting (hr : s.run = .waitingForKey) (hq : (sampleQuit s).1 = false) :
    t.run = if (sampleKeyEvent (sampleQuit s).2).1.isSome then .running else .waitingForKey := by
  cases (step_of_waiting hr (Prod.ext hq rfl)).symm.trans hstep
  have hr' : (sampleQuit s).2.run = s.run := by rw [sampleQuit_snd]
  rw [betweenIterations_run, waitingIteration_run, hr', hr]

theorem step_from_waiting (hr : s.run = .waitingForKey) :
    (t.run = .running ↔ (sampleQuit s).1 = false ∧ ∃ k, (sampleKeyEvent (sampleQuit s).2).1 = some k) ∧
      (t.run = .waitingForKey ↔ (sampleQuit s).1 = false ∧ (sampleKeyEvent (sampleQuit s).2).1 = none) ∧
      t.run ≠ .halted := by
  cases hq : (sampleQuit s).1 with
  | true =>
    rw [(step_stops_iff hstep (.inr hr)).2 hq]
    simp
  | false =>
    rw [step_run_of_waiting hstep hr hq]
    cases (sampleKeyEvent (sampleQuit s).2).1 <;> simp

end

/-- Settles O18: one lemma per row of the table. -/
theorem runChangesOnlyAsTheTransitionTableSays : Obligations.RunChangesOnlyAsTheTransitionTableSays :=
  fun _ _ hstep =>
    ⟨fun hs => (step_keeps_inactive hstep (.inl hs)).trans hs, fun hs => (step_keeps_inactive hstep (.inr hs)).trans hs,
      step_stops_iff hstep, step_waits_only_by_ldVxK hstep, fun _ _ => step_of_ldVxK hstep,
      step_halts_iff_faultRaised hstep, step_from_waiting hstep⟩

/-! ### FB_UPDATED and the level outputs (44_display R232, 10_state R33) -/

theorem fbUpdated_iff (s : State) :
    fbUpdated s = true ↔
      dispatched s = some .cls ∨
        ∃ x y n, dispatched s = some (.drwVxVyN x y n) ∧ expectedFault (.drwVxVyN x y n) s = .noFault := by
  obtain ⟨t, ht⟩ := everyStepAnswersANextState s
  cases hdis : dispatched s with
  | none => simp [fbUpdated, hdis]
  | some ins =>
    cases ins with
    | cls => simp [fbUpdated, hdis, ht]
    | drwVxVyN x y n => simp [fbUpdated, hdis, ht, step_halts_iff hdis ht nofun]
    | _ => simp [fbUpdated, hdis]

theorem toNat_code_ne_zero_iff (c : Cause) : c.code.toNat ≠ 0 ↔ c ≠ .noFault := by cases c <;> decide

/-- Settles O46: the outputs are fields of the state; the record's clauses are `recordFits`. -/
theorem fbUpdatedAfterClsAndUnfaultedDrw : Obligations.FbUpdatedAfterClsAndUnfaultedDrw := by
  intro s
  refine ⟨fbUpdated_iff s, fun _ _ => rfl, ?_, decide_eq_true_iff, decide_eq_true_iff, decide_eq_true_iff, rfl, rfl, ?_, ?_⟩
  · simp [outputs, ← BitVec.toNat_inj]
  · simp only [List.forall_mem_cons, List.not_mem_nil, false_imp_iff, implies_true, and_true, outputs]
    refine ⟨?_, ?_, ?_, ?_, ?_, ?_⟩ <;> intro h <;> rw [h] <;> rfl
  · rintro ⟨hcause, hzero⟩
    simp only [outputs, decide_eq_true_iff, decide_eq_false_iff_not, toNat_code_ne_zero_iff]
    exact ⟨hcause, hzero⟩

/-! ### Timer instructions, whole iterations (70_reset_and_hazards R317) -/

theorem step_of_dispatched_perCycle {s u : State} {ins : Instr} (hdis : dispatched s = some ins)
    (he : exec ins { s with pc := s.pc + 2, host := (sampleQuit s).2.host } = .next u) (hrun : u.run = s.run)
    (hcfg : u.cfg.timerTick = .perCycle) : step s = .next (timerTick u) := by
  obtain ⟨hr, hq, w, hf, hd⟩ := dispatched_eq_some hdis
  refine step_of_decode_perCycle hr (Prod.ext hq rfl) hf hd ((congrArg _ (dispatch_state s)).trans he) ?_ hcfg
  rw [hrun, hr]
  decide

/-- Settles O50: the instruction's effect, then one tick. -/
theorem timerInstructionsAreTickedInTheirOwnIteration : Obligations.TimerInstructionsAreTickedInTheirOwnIteration := by
  intro s x hcfg
  exact ⟨fun hdis => ⟨_, step_of_dispatched_perCycle hdis rfl rfl hcfg, countDown_toNat _⟩,
    fun hdis => ⟨_, step_of_dispatched_perCycle hdis rfl rfl hcfg, countDown_toNat _⟩,
    fun hdis => ⟨_, step_of_dispatched_perCycle hdis rfl rfl hcfg, getV_setV_same s x _, countDown_toNat _⟩⟩

end Sys2Proof.Machine
end

section
/-! PROOFS. The invariants (10_state R24, R26, R30, R36): what RESET establishes, what every step keeps, and every run. -/

namespace Sys2Proof.Machine

/-! ### RESET (70_reset_and_hazards R310, R311) -/

theorem resetWith_eq_ok {font rom : List Byte} {cfg : Config} {host : Inputs} (hfont : font.length = 80)
    (hrom : rom.length ≤ 3584) :
    State.resetWith font rom cfg host =
      .ok { State.reset with mem := bootMemory font rom, cfg := cfg, host := host } := by
  rw [State.resetWith, if_neg (not_not.2 hfont), if_neg (not_lt.2 hrom)]

theorem eq_of_resetWith_eq_ok {font rom : List Byte} {cfg : Config} {host : Inputs} {s : State}
    (h : State.resetWith font rom cfg host = .ok s) :
    font.length = 80 ∧ rom.length ≤ 3584 ∧
      s = { State.reset with mem := bootMemory font rom, cfg := cfg, host := host } := by
  unfold State.resetWith at h
  split_ifs at h with hfont hrom
  cases h
  exact ⟨not_not.1 hfont, not_lt.1 hrom, rfl⟩

theorem font_fits {font : List Byte} (hfont : font.length = 80) : 0 + font.length ≤ memSize := by
  rw [hfont]
  decide

theorem rom_fits {rom : List Byte} (hrom : rom.length ≤ 3584) : 0x200 + rom.length ≤ memSize := by
  rw [memSize]
  omega

theorem bootMemory_wf {font rom : List Byte} (hfont : font.length = 80) (hrom : rom.length ≤ 3584) :
    (bootMemory font rom).wf = true :=
  Memory.writeBytes_wf (Memory.writeBytes_wf Memory.reset_wf (font_fits hfont)) (rom_fits hrom)

/-- MEM after RESET (10_state R36): the two images do not overlap, and the default font lies inside the first. -/
theorem bootMemory_read {font rom : List Byte} (hfont : font.length = 80) (hrom : rom.length ≤ 3584) (a : Nat) :
    (bootMemory font rom).read a = if a < 80 then font.getD a 0
      else if 0x200 ≤ a ∧ a < 0x200 + rom.length then rom.getD (a - 0x200) 0 else 0 := by
  have hfont_wf : (Memory.writeBytes [] 0 font).wf = true := Memory.writeBytes_wf Memory.reset_wf (font_fits hfont)
  rw [bootMemory, Memory.read_writeBytes hfont_wf (rom_fits hrom), Memory.read_writeBytes rfl (font_fits hfont), hfont]
  by_cases ha : a < 80
  · rw [if_pos ha, if_neg (by omega), if_pos (by omega), Nat.sub_zero]
  · rw [if_neg ha, if_neg (c := 0 ≤ a ∧ a < 0 + 80) (by omega), Memory.read, Memory.unlisted_of_ge (not_lt.1 ha)]

/-- Settles O55: MEM by `bootMemory_read`, every other field as `State.reset` has it. -/
theorem resetLeavesTheTableOfValues : Obligations.ResetLeavesTheTableOfValues := by
  intro font rom cfg host
  refine ⟨fun hfont hrom => ⟨_, resetWith_eq_ok hfont hrom, rfl, pixel_blankFb, rfl, bootMemory_read hfont hrom, ?_, rfl,
    rfl, rfl, rfl, rfl, rfl, rfl, rfl, rfl⟩, fun hfont => if_pos hfont, fun hfont hrom => ?_⟩
  · intro j
    exact Vector.getElem_replicate j.toFin.isLt
  · rw [State.resetWith, if_neg (not_not.2 hfont), if_pos hrom]

/-- The state that RESET leaves meets the invariant, for every legal font, ROM and depth. -/
theorem inv_of_resetWith {font rom : List Byte} {cfg : Config} {host : Inputs} {s : State} (hcfg : cfg.valid = true)
    (h : State.resetWith font rom cfg host = .ok s) : s.Inv := by
  obtain ⟨hfont, hrom, rfl⟩ := eq_of_resetWith_eq_ok h
  have hrec : State.reset.recordFits := by decide
  have hpc : State.reset.pc.toNat ≤ 0x10FE := by decide
  exact ⟨bootMemory_wf hfont hrom, Nat.zero_le _, hrec, ⟨hpc, nofun⟩, hcfg⟩

/-- The default font is what unlisted memory reads as, so storing it lists nothing (log 8). -/
theorem bootMemory_defaultFont : bootMemory defaultFont [] = [] := by decide

/-- Settles O56: RESET with the default images lists nothing, and so is `State.reset`. -/
theorem resetStateMeetsTheInvariant : Obligations.ResetStateMeetsTheInvariant := by
  have hreset : State.resetWith defaultFont [] Config.default Inputs.silent = .ok State.reset := by
    rw [resetWith_eq_ok rfl (Nat.zero_le _), bootMemory_defaultFont]
    rfl
  exact ⟨inv_of_resetWith rfl hreset, hreset⟩

/-! ### What a step can do to memory, the stack and PC -/

/-- `step_cases` for the fields the invariants speak of: without an instruction only PC moves, and by one word. -/
theorem step_frame_cases {s t : State} (hstep : step s = .next t) :
    (t.mem = s.mem ∧ t.cfg = s.cfg ∧ t.stack = s.stack ∧ (t.pc = s.pc ∨ s.pc.toNat ≤ 4094 ∧ t.pc = s.pc + 2)) ∨
      (s.run = .running ∧ s.pc.toNat ≤ 4094 ∧ ∃ ins host u, exec ins { s with pc := s.pc + 2, host := host } = .next u ∧
        t = { u with dt := t.dt, st := t.st, host := t.host }) := by
  obtain ⟨-, rfl⟩ | ⟨-, -, rfl⟩ | ⟨-, -, -, -, rfl⟩ | ⟨-, -, hpc, w, _, -, -, rfl⟩ | ⟨hr, -, hpc, ins, u, -, hu, e, -⟩ |
    ⟨-, -, r, -, e⟩ := step_cases hstep
  · exact .inl ⟨rfl, rfl, rfl, .inl rfl⟩
  · exact .inl ⟨rfl, rfl, rfl, .inl rfl⟩
  · rw [sampleQuit_snd]
    exact .inl ⟨rfl, rfl, rfl, .inl rfl⟩
  · rw [dispatch_state]
    exact .inl ⟨rfl, rfl, rfl, .inr ⟨hpc, rfl⟩⟩
  · rw [dispatch_state] at hu
    exact .inr ⟨hr, hpc, ins, _, u, hu, e⟩
  · rw [e]
    exact .inl ⟨rfl, rfl, rfl, .inl rfl⟩

/-- Settles O57: a store inside MEM keeps the form, and the bounds check keeps stores inside MEM. -/
theorem stepsKeepMemoryCanonical : Obligations.StepsKeepMemoryCanonical := by
  intro s t hwf hstep
  obtain ⟨hmem, -⟩ | ⟨-, -, ins, host, u, hu, e⟩ := step_frame_cases hstep
  · rwa [hmem]
  · rw [e]
    exact (exec_cases hu).1 hwf

/-- Settles O54: no instruction writes the parameters, by `exec_cases`. -/
theorem parametersNeverChange : Obligations.ParametersNeverChange := by
  intro s t hstep
  obtain ⟨-, hcfg, -⟩ | ⟨-, -, ins, host, u, hu, e⟩ := step_frame_cases hstep
  · exact hcfg
  · rw [e]
    exact (exec_cases hu).2.1

/-! ### PC and the saved PCs (10_state R24, 41_flow R151) -/

theorem toNat_pc_add_two {a : Word} {n : Nat} (h : a.toNat ≤ n) (hn : n + 2 < 65536) : (a + 2).toNat = a.toNat + 2 := by
  rw [BitVec.toNat_add]
  exact Nat.mod_eq_of_lt (by change a.toNat + 2 < 65536; omega)

theorem exec_keeps_pcFits {ins : Instr} {s u : State} (hpc : 2 ≤ s.pc.toNat ∧ s.pc.toNat ≤ 4096)
    (hstack : ∀ a ∈ s.stack, 2 ≤ a.toNat ∧ a.toNat ≤ 4096) (hu : exec ins s = .next u) : u.pcFits := by
  obtain ⟨-, -, ⟨e, -⟩ | ⟨-, -, -, -, -, -, ⟨hst, hmove⟩ | ⟨hpush, hlt⟩ | hpop⟩⟩ := exec_cases hu
  · rw [e]
    exact ⟨by change s.pc.toNat ≤ _; omega, hstack⟩
  · refine ⟨?_, hst ▸ hstack⟩
    obtain h | h | h := hmove
    · rw [h]
      omega
    · rw [h, toNat_pc_add_two hpc.2 (by decide)]
      omega
    · exact h
  · refine ⟨by omega, ?_⟩
    rw [hpush, List.forall_mem_cons]
    exact ⟨hpc, hstack⟩
  · rw [hpop, List.forall_mem_cons] at hstack
    exact ⟨by omega, hstack.2⟩

/-- Settles O58: an instruction is reached with PC at most 4094, so the advanced PC is a legal saved PC. -/
theorem stepsKeepThePcInRange : Obligations.StepsKeepThePcInRange := by
  rintro s t ⟨hpc, hstack⟩ hstep
  obtain ⟨-, -, hst, hmove⟩ | ⟨-, hle, ins, host, u, hu, e⟩ := step_frame_cases hstep
  · refine ⟨?_, hst ▸ hstack⟩
    obtain h | ⟨hle, h⟩ := hmove
    · rwa [h]
    · rw [h, toNat_pc_add_two hle (by decide)]
      omega
  · have hnext : (s.pc + 2).toNat = s.pc.toNat + 2 := toNat_pc_add_two hle (by decide)
    have hfits : u.pcFits := exec_keeps_pcFits (s := { s with pc := s.pc + 2, host := host })
      (by change 2 ≤ (s.pc + 2).toNat ∧ (s.pc + 2).toNat ≤ 4096; omega) hstack hu
    rw [e]
    exact hfits

/-! ### The stack's depth and the fault record (10_state R26, R30) -/

theorem step_keeps_stackFits {s t : State} (hfit : s.stackFits) (hstep : step s = .next t) : t.stackFits := by
  obtain ⟨-, hcfg, hst, -⟩ | ⟨-, -, ins, host, u, hu, e⟩ := step_frame_cases hstep
  · rwa [State.stackFits, State.sp, hst, hcfg]
  · rw [e]
    obtain ⟨-, -, ⟨e, -⟩ | ⟨-, -, -, -, -, hkeep, -⟩⟩ := exec_cases hu
    · rw [e]
      exact hfit
    · exact hkeep hfit

theorem recordFits_of_halted {t : State} (hr : t.run = .halted) (hc : t.cause ≠ .noFault) : t.recordFits :=
  ⟨iff_of_true hr hc, fun h => absurd hr h⟩

theorem recordFits_of_kept {s t : State} (h : s.recordFits) (hs : s.run ≠ .halted) (ht : t.run ≠ .halted)
    (hc : t.cause = s.cause) (ha : t.faultAddr = s.faultAddr) (hw : t.faultWord = s.faultWord) : t.recordFits := by
  refine ⟨iff_of_false ht ?_, fun _ => ?_⟩
  · rw [hc]
    exact mt h.1.2 hs
  · rw [ha, hw]
    exact h.2 hs

theorem exec_keeps_recordFits {ins : Instr} {s u : State} (h : s.recordFits) (hs : s.run ≠ .halted)
    (hu : exec ins s = .next u) : u.recordFits := by
  obtain ⟨-, -, ⟨e, hc⟩ | ⟨hc, ha, hw, -⟩⟩ := exec_cases hu
  · exact recordFits_of_halted (congrArg State.run e) hc
  · refine recordFits_of_kept h hs (fun ht => ?_) hc ha hw
    obtain ⟨-, hcause⟩ := exec_halted hu hs ht
    exact hcause (hc.trans (not_not.1 (mt h.1.2 hs)))

theorem step_keeps_recordFits {s t : State} (h : s.recordFits) (hstep : step s = .next t) : t.recordFits := by
  obtain ⟨-, rfl⟩ | ⟨ha, -, rfl⟩ | ⟨-, -, -, -, rfl⟩ | ⟨-, -, -, w, _, -, -, rfl⟩ | ⟨hr, -, -, ins, u, -, hu, e, -⟩ |
    ⟨hr, -, r, hw, e⟩ := step_cases hstep
  · exact h
  · refine recordFits_of_kept h ?_ nofun rfl rfl rfl
    obtain hr | hr := ha <;> rw [hr] <;> decide
  · exact recordFits_of_halted rfl nofun
  · exact recordFits_of_halted rfl nofun
  · rw [dispatch_state] at hu
    have hs : s.run ≠ .halted := by rw [hr]; decide
    have hfits : u.recordFits :=
      exec_keeps_recordFits (s := { s with pc := s.pc + 2, host := (sampleQuit s).2.host }) h hs hu
    rw [e]
    exact hfits
  · rw [e]
    refine recordFits_of_kept h (by rw [hr]; decide) ?_ rfl rfl rfl
    obtain rfl | rfl := hw <;> nofun

/-- Settles O59: the depth and the record, each by a lemma of its own. -/
theorem stepsKeepStackAndRecord : Obligations.StepsKeepStackAndRecord :=
  fun _ _ hfit hrec hstep => ⟨step_keeps_stackFits hfit hstep, step_keeps_recordFits hrec hstep⟩

/-! ### Every run -/

theorem step_keeps_inv {s t : State} (h : s.Inv) (hstep : step s = .next t) : t.Inv := by
  obtain ⟨hwf, hfit, hrec, hpc, hcfg⟩ := h
  exact ⟨stepsKeepMemoryCanonical s t hwf hstep, step_keeps_stackFits hfit hstep, step_keeps_recordFits hrec hstep,
    stepsKeepThePcInRange s t hpc hstep, by rwa [parametersNeverChange s t hstep]⟩

/-- Settles O60: by induction on the run; a RESET keeps the parameters, so their legality lasts. -/
theorem reachableStatesMeetTheInvariant : Obligations.ReachableStatesMeetTheInvariant := by
  intro s hs
  induction hs with
  | boot font rom cfg host s hcfg h => exact inv_of_resetWith hcfg h
  | step s t _ hstep ih => exact step_keeps_inv ih hstep
  | again font rom s t _ h ih =>
    obtain ⟨-, -, -, -, hcfg⟩ := ih
    exact inv_of_resetWith hcfg h

end Sys2Proof.Machine
end

section
/-! PROOFS. Single instructions (41_flow to 45_keypad_timers). Each word is decoded by `decodeWord_encode`; each effect is
one of a few shapes: a jump, a skip, a write of one register, or a register with its flag. -/

namespace Sys2Proof.Machine

/-! ### Control flow (41_flow) -/

theorem onlyPc_setPc (a : Word) (s : State) : OnlyPc s (s.setPc a) := ⟨rfl, sameMemory_of_mem_eq rfl⟩

theorem onlyPc_skipIf (c : Bool) (s : State) : OnlyPc s (skipIf c s) := by
  rw [skipIf_eq]
  exact onlyPc_setPc _ s

theorem skipIf_pc (c : Bool) (s : State) : (skipIf c s).pc = if c then s.pc + 2 else s.pc := by rw [skipIf_eq]

theorem toNat_targetV0Nnn (nnn : Addr) (s : State) :
    (targetV0Nnn nnn s).toNat = nnn.toNat + (s.getV 0x0#4).toNat := by
  have hn := nnn.isLt
  have hv := (s.getV 0x0#4).isLt
  rw [targetV0Nnn, BitVec.toNat_add, BitVec.toNat_setWidth_of_le (by decide), BitVec.toNat_setWidth_of_le (by decide)]
  omega

/-- Settles O22: each jump is one `setPc`. -/
theorem jumpsSetThePc : Obligations.JumpsSetThePc := fun nnn s =>
  ⟨⟨decodeWord_encode (ins := .jpNnn nnn) rfl, _, rfl, toNat_targetNnn nnn, onlyPc_setPc _ s⟩,
    ⟨decodeWord_encode (ins := .jpV0Nnn nnn) rfl, _, rfl, toNat_targetV0Nnn nnn s, onlyPc_setPc _ s⟩⟩

/-- Settles O23: past 4094 the fetch fails. -/
theorem seVxKkSkipsWhenEqual : Obligations.SeVxKkSkipsWhenEqual := by
  intro x kk s
  have hpc : (skipIf (s.getV x == kk) s).pc = if s.getV x = kk then s.pc + 2 else s.pc := by
    simp only [skipIf_pc, beq_iff_eq]
  refine ⟨decodeWord_encode (ins := .seVxKk x kk) rfl, _, rfl, hpc, onlyPc_skipIf _ s, fun heq hend => ?_⟩
  have hnext : (skipIf (s.getV x == kk) s).pc.toNat = s.pc.toNat + 2 := by
    rw [hpc, if_pos heq, toNat_pc_add_two (n := 4096) (by omega) (by decide)]
  exact ⟨hnext, fetch_of_pc_gt (by omega)⟩

/-- Settles O24: each skip is one `skipIf`, whatever the ignored nibble. -/
theorem otherSkipsCompare : Obligations.OtherSkipsCompare := fun x y n kk s =>
  ⟨⟨decodeWord_encode (ins := .sneVxKk x kk) rfl, _, rfl, by simp only [skipIf_pc, bne_iff_ne], onlyPc_skipIf _ s⟩,
    ⟨decodeWord_seVxVy x y n, _, rfl, by simp only [skipIf_pc, beq_iff_eq], onlyPc_skipIf _ s⟩,
    ⟨decodeWord_sneVxVy x y n, _, rfl, by simp only [skipIf_pc, bne_iff_ne], onlyPc_skipIf _ s⟩⟩

/-- Settles O25: CALL pushes what RET pops. -/
theorem retAfterCallReturns : Obligations.RetAfterCallReturns := by
  intro nnn s t hroom hcall
  cases (exec_callNnn_of_room hroom).symm.trans hcall
  exact ⟨_, exec_ret_of_cons rfl, rfl⟩

/-! ### One register (42_alu R181 to R185, R191) -/

/-- Settles O27: each is one `setV`. -/
theorem addVxKkAndLdVxVyWriteOneRegister : Obligations.AddVxKkAndLdVxVyWriteOneRegister := fun x y kk s =>
  ⟨⟨decodeWord_encode (ins := .addVxKk x kk) rfl, _, rfl,
      (congrArg BitVec.toNat (getV_setV_same s x _)).trans (BitVec.toNat_add ..), fun _ hj => getV_setV_ne s _ hj,
      onlyV_setV x _ s⟩,
    ⟨decodeWord_encode (ins := .ldVxVy x y) rfl, _, rfl, getV_setV_same s x _, fun _ hj => getV_setV_ne s _ hj,
      onlyV_setV x _ s⟩⟩

/-- Settles O28: each is one `setV`. -/
theorem bitwiseOperationsCombineBitByBit : Obligations.BitwiseOperationsCombineBitByBit := fun x y s =>
  ⟨⟨decodeWord_encode (ins := .orVxVy x y) rfl, _, rfl, fun b => by rw [getV_setV_same, BitVec.getLsbD_or],
      fun _ hj => getV_setV_ne s _ hj, onlyV_setV x _ s⟩,
    ⟨decodeWord_encode (ins := .andVxVy x y) rfl, _, rfl, fun b => by rw [getV_setV_same, BitVec.getLsbD_and],
      fun _ hj => getV_setV_ne s _ hj, onlyV_setV x _ s⟩,
    ⟨decodeWord_encode (ins := .xorVxVy x y) rfl, _, rfl, fun b => by rw [getV_setV_same, BitVec.getLsbD_xor],
      fun _ hj => getV_setV_ne s _ hj, onlyV_setV x _ s⟩⟩

/-- Settles O32: the answer changes `host` alone, the masked byte one register. -/
theorem rndMasksTheHostsByte : Obligations.RndMasksTheHostsByte := by
  intro x kk r s t hsample
  have hlisted : ∀ b rest, s.host.rnd = b :: rest → r = b := by
    intro b rest hcons
    simp only [sampleRnd, hcons, Prod.mk.injEq] at hsample
    exact hsample.1.symm
  have ht : t = { s with host := t.host } := by
    have h := sampleRnd_snd s
    rwa [hsample] at h
  have hmem : t.mem = s.mem := by rw [ht]
  have he : exec (.rndVxKk x kk) s = .next (t.setV x (r &&& kk)) := by
    rw [show exec (.rndVxKk x kk) s = _ from execRndVxKk_eq x kk s, hsample]
  refine ⟨decodeWord_encode (ins := .rndVxKk x kk) rfl, hlisted, _, he, fun b => ?_, fun j hj => ?_, ?_, ?_⟩
  · rw [getV_setV_same, BitVec.getLsbD_and]
  · rw [getV_setV_ne t _ hj, ht]
    rfl
  · rw [State.setV, ht]
  · exact sameMemory_of_mem_eq hmem

/-! ### A register and the flag (42_alu R186 to R190, R192) -/

theorem flagByte_decide (p : Prop) [Decidable p] : flagByte (decide p) = if p then 1 else 0 := by
  by_cases h : p <;> simp [flagByte, h]

/-- Flag, then result: the result survives where they meet. -/
theorem setFlagThenResult_spec (x : Nibble) (f r : Byte) (s : State) :
    (setFlagThenResult x f r s).getV x = r ∧ (x ≠ 0xF#4 → (setFlagThenResult x f r s).getV 0xF#4 = f) ∧
      (∀ j, j ≠ x → j ≠ 0xF#4 → (setFlagThenResult x f r s).getV j = s.getV j) ∧ OnlyV s (setFlagThenResult x f r s) := by
  have hflag : (s.setV flagReg f).getV 0xF#4 = f := getV_setV_same ..
  exact ⟨getV_setV_same .., fun hx => (getV_setV_ne _ r hx.symm).trans hflag,
    fun _ hj hf => (getV_setV_ne _ r hj).trans (getV_setV_ne s f hf), rfl, sameMemory_of_mem_eq rfl⟩

/-- Result, then flag: the flag survives where they meet. -/
theorem setResultThenFlag_spec (x : Nibble) (r f : Byte) (s : State) :
    (setResultThenFlag x r f s).getV 0xF#4 = f ∧ (x ≠ 0xF#4 → (setResultThenFlag x r f s).getV x = r) ∧
      (∀ j, j ≠ x → j ≠ 0xF#4 → (setResultThenFlag x r f s).getV j = s.getV j) ∧ OnlyV s (setResultThenFlag x r f s) :=
  ⟨getV_setV_same .., fun hx => (getV_setV_ne _ f hx).trans (getV_setV_same s x r),
    fun _ hj hf => (getV_setV_ne _ f hf).trans (getV_setV_ne s r hj), rfl, sameMemory_of_mem_eq rfl⟩

/-- Settles O29. -/
theorem addVxVySetsTheCarry : Obligations.AddVxVySetsTheCarry := by
  intro x y s
  obtain ⟨hf, hr, hj, hv⟩ :=
    setResultThenFlag_spec x (s.getV x + s.getV y) (carryFlag (s.getV x) (s.getV y)) s
  exact ⟨decodeWord_encode (ins := .addVxVy x y) rfl, _, rfl, hf.trans (flagByte_decide _),
    fun hx => by rw [hr hx, BitVec.toNat_add], hj, hv⟩

theorem toNat_sub_byte (a b : Byte) : (a - b).toNat = (a.toNat + 256 - b.toNat) % 256 := by
  have hb := b.isLt
  rw [BitVec.toNat_sub]
  omega

/-- Settles O30: flag, then the difference. -/
theorem subAndSubnSetTheInvertedBorrow : Obligations.SubAndSubnSetTheInvertedBorrow := by
  intro x y s
  have hflag (a b : Byte) : noBorrowFlag a b = if a.toNat ≥ b.toNat then 1 else 0 := flagByte_decide _
  obtain ⟨hr, hf, hj, hv⟩ :=
    setFlagThenResult_spec x (noBorrowFlag (s.getV x) (s.getV y)) (s.getV x - s.getV y) s
  obtain ⟨hr', hf', hj', hv'⟩ :=
    setFlagThenResult_spec x (noBorrowFlag (s.getV y) (s.getV x)) (s.getV y - s.getV x) s
  exact ⟨⟨decodeWord_encode (ins := .subVxVy x y) rfl, _, rfl, by rw [hr, toNat_sub_byte],
      fun hx => (hf hx).trans (hflag ..), hj, hv⟩,
    ⟨decodeWord_encode (ins := .subnVxVy x y) rfl, _, rfl, by rw [hr', toNat_sub_byte],
      fun hx => (hf' hx).trans (hflag ..), hj', hv'⟩⟩

theorem toNat_shiftRight_one (b : Byte) : (b >>> 1).toNat = b.toNat / 2 := by
  rw [BitVec.toNat_ushiftRight, Nat.shiftRight_one]

theorem toNat_shiftLeft_one (b : Byte) : (b <<< 1).toNat = b.toNat * 2 % 256 := by
  rw [BitVec.toNat_shiftLeft, Nat.shiftLeft_eq]

/-- A flag that shows one bit of a byte, as a number. -/
theorem toNat_flagByte_getLsbD (b : Byte) (k : Nat) : (flagByte (b.getLsbD k)).toNat = b.toNat / 2 ^ k % 2 := by
  rw [flagByte_toNat, BitVec.getLsbD, Nat.testBit_eq_decide_div_mod_eq]
  by_cases h : b.toNat / 2 ^ k % 2 = 1
  · simp [h]
  · simp [h]
    omega

/-- Settles O31: the bits moved out are bit 0 and bit 7. -/
theorem shiftsMoveVyByOne : Obligations.ShiftsMoveVyByOne := by
  intro x y s
  obtain ⟨hr, hf, hj, hv⟩ := setFlagThenResult_spec x (shiftRightFlag (s.getV y)) (s.getV y >>> 1) s
  obtain ⟨hr', hf', hj', hv'⟩ := setFlagThenResult_spec x (shiftLeftFlag (s.getV y)) (s.getV y <<< 1) s
  have hlow : (shiftRightFlag (s.getV y)).toNat = (s.getV y).toNat % 2 := by
    rw [shiftRightFlag, toNat_flagByte_getLsbD, Nat.pow_zero, Nat.div_one]
  have hhigh : (shiftLeftFlag (s.getV y)).toNat = (s.getV y).toNat / 128 := by
    have := (s.getV y).isLt
    rw [shiftLeftFlag, toNat_flagByte_getLsbD]
    omega
  exact ⟨⟨decodeWord_encode (ins := .shrVxVy x y) rfl, _, rfl, by rw [hr, toNat_shiftRight_one],
      fun hx => by rw [hf hx, hlow], hj, hv⟩,
    ⟨decodeWord_encode (ins := .shlVxVy x y) rfl, _, rfl, by rw [hr', toNat_shiftLeft_one],
      fun hx => by rw [hf' hx, hhigh], hj', hv'⟩⟩

/-! ### I, the display and the timers (43_index_memory R211, R212; 44_display R230; 45_keypad_timers R252 to R255) -/

theorem toNat_iPlus (a : Byte) (s : State) : (iPlus a s).toNat = (s.i.toNat + a.toNat) % 65536 := by
  rw [iPlus, BitVec.toNat_add, BitVec.toNat_setWidth_of_le (by decide)]

theorem toNat_glyphAddr (a : Byte) : (glyphAddr a).toNat = 5 * a.toNat := by
  have := a.isLt
  rw [glyphAddr, BitVec.toNat_ofNat]
  omega

/-- Settles O35: each is one `setI`. -/
theorem addIAndLdFComputeI : Obligations.AddIAndLdFComputeI := fun x s =>
  ⟨⟨decodeWord_encode (ins := .addIVx x) rfl, _, rfl, toNat_iPlus _ s, onlyI_setI _ s⟩,
    ⟨decodeWord_encode (ins := .ldFVx x) rfl, _, rfl, toNat_glyphAddr _, onlyI_setI _ s⟩⟩

/-- Settles O43: FB_UPDATED by `fbUpdated_iff`. -/
theorem clsTurnsEveryPixelOff : Obligations.ClsTurnsEveryPixelOff :=
  ⟨rfl, fun _ => ⟨_, rfl, pixel_blankFb, rfl, sameMemory_of_mem_eq rfl⟩, fun s h => (fbUpdated_iff s).2 (.inl h)⟩

/-- Settles O49: each is one write of a register or a timer. -/
theorem timerMovesCopyAByte : Obligations.TimerMovesCopyAByte := fun x s =>
  ⟨⟨decodeWord_encode (ins := .ldVxDt x) rfl, _, rfl, getV_setV_same s x _, fun _ hj => getV_setV_ne s _ hj,
      onlyV_setV x _ s⟩,
    ⟨decodeWord_encode (ins := .ldDtVx x) rfl, _, rfl, rfl, sameMemory_of_mem_eq rfl⟩,
    ⟨decodeWord_encode (ins := .ldStVx x) rfl, _, rfl, rfl, sameMemory_of_mem_eq rfl⟩⟩

/-- Settles O51: RUN and WAIT_REG are the two fields written. -/
theorem ldVxKEntersTheWait : Obligations.LdVxKEntersTheWait := fun x _ =>
  ⟨decodeWord_encode (ins := .ldVxK x) rfl, _, rfl, rfl, sameMemory_of_mem_eq rfl⟩

end Sys2Proof.Machine
end

section
/-! PROOFS. Instructions against one another: who writes VF, stores read back by loads and fetches, and drawing twice. -/

namespace Sys2Proof.Machine

/-! ### The flag register (10_state R22) -/

theorem flagByte_zero_or_one (f : Bool) : flagByte f = 0 ∨ flagByte f = 1 := by
  cases f
  · exact .inl rfl
  · exact .inr rfl

/-- SUB, SUBN, SHR and SHL with a destination other than VF leave the flag in VF. -/
theorem setFlagThenResult_flag {x : Nibble} (hx : x ≠ 0xF#4) (f : Bool) (r : Byte) (s : State) :
    (setFlagThenResult x (flagByte f) r s).getV 0xF#4 = 0 ∨ (setFlagThenResult x (flagByte f) r s).getV 0xF#4 = 1 := by
  obtain ⟨-, hf, -⟩ := setFlagThenResult_spec x (flagByte f) r s
  rw [hf hx]
  exact flagByte_zero_or_one f

theorem setResultThenFlag_flag (x : Nibble) (r : Byte) (f : Bool) (s : State) :
    (setResultThenFlag x r (flagByte f) s).getV 0xF#4 = 0 ∨ (setResultThenFlag x r (flagByte f) s).getV 0xF#4 = 1 := by
  obtain ⟨hf, -⟩ := setResultThenFlag_spec x r (flagByte f) s
  rw [hf]
  exact flagByte_zero_or_one f

theorem execDrwVxVyN_flag {x y n : Nibble} {s t : State} (h : execDrwVxVyN x y n s = .next t) (ht : t.run ≠ .halted) :
    t.getV 0xF#4 = 0 ∨ t.getV 0xF#4 = 1 := by
  obtain ⟨-, e⟩ | ⟨-, -, e⟩ := execDrwVxVyN_cases x y n s <;> cases e.symm.trans h
  · have hflag : ({ s with fb := (drawn x y n s).fb }.setV flagReg (flagByte (drawn x y n s).hit)).getV 0xF#4 =
        flagByte (drawn x y n s).hit := getV_setV_same ..
    rw [hflag]
    exact flagByte_zero_or_one _
  · exact absurd rfl ht

theorem execRndVxKk_keeps_getV {x j : Nibble} {kk : Byte} {s t : State} (hj : j ≠ x) (h : execRndVxKk x kk s = .next t) :
    t.getV j = s.getV j := by
  rw [execRndVxKk_eq, sampleRnd_snd] at h
  cases h
  exact getV_setV_ne _ _ hj

theorem execLdVxMemI_keeps_flag {x : Nibble} {s t : State} (hx : x ≠ 0xF#4) (h : execLdVxMemI x s = .next t) :
    t.getV 0xF#4 = s.getV 0xF#4 := by
  have hlt : ¬ (0xF#4 : Nibble).toNat ≤ x.toNat := fun hle =>
    hx (BitVec.eq_of_toNat_eq (le_antisymm (Nat.le_of_lt_succ x.isLt) hle))
  obtain ⟨-, e⟩ | ⟨-, e⟩ := execLdVxMemI_cases x s <;> cases e.symm.trans h
  · rw [State.setI_getV, setBlock_readBytes_getV, if_neg hlt]
  · exact enterHalted_getV ..

theorem execRet_keeps_v {s t : State} (h : execRet s = .next t) : t.v = s.v := by
  obtain ⟨_, _, -, e⟩ | ⟨-, e⟩ := execRet_cases s <;> cases e.symm.trans h
  · rfl
  · exact enterHalted_v ..

theorem execCallNnn_keeps_v {nnn : Addr} {s t : State} (h : execCallNnn nnn s = .next t) : t.v = s.v := by
  obtain ⟨-, e⟩ | ⟨-, e⟩ := execCallNnn_cases nnn s <;> cases e.symm.trans h
  · rfl
  · exact enterHalted_v ..

theorem skipIf_keeps_v {c : Bool} {s t : State} (h : Host.Outcome.next (skipIf c s) = (.next t : Result)) : t.v = s.v := by
  cases h
  rw [skipIf_eq]

theorem execSkpVx_keeps_v {x : Nibble} {s t : State} (h : execSkpVx x s = .next t) : t.v = s.v := by
  obtain ⟨-, e⟩ | ⟨-, e⟩ := execSkpVx_cases x s <;> cases e.symm.trans h
  · rw [skipIf_sampleKeys]
  · exact enterHalted_v ..

theorem execSknpVx_keeps_v {x : Nibble} {s t : State} (h : execSknpVx x s = .next t) : t.v = s.v := by
  obtain ⟨-, e⟩ | ⟨-, e⟩ := execSknpVx_cases x s <;> cases e.symm.trans h
  · rw [skipIf_sampleKeys]
  · exact enterHalted_v ..

theorem execLdBVx_keeps_v {x : Nibble} {s t : State} (h : execLdBVx x s = .next t) : t.v = s.v := by
  obtain ⟨-, e⟩ | ⟨-, e⟩ := execLdBVx_cases x s <;> cases e.symm.trans h
  · rfl
  · exact enterHalted_v ..

theorem execLdMemIVx_keeps_v {x : Nibble} {s t : State} (h : execLdMemIVx x s = .next t) : t.v = s.v := by
  obtain ⟨-, e⟩ | ⟨-, e⟩ := execLdMemIVx_cases x s <;> cases e.symm.trans h
  · rfl
  · exact enterHalted_v ..

/-- Settles O33: one case per instruction, in the order of the statement's three lists. -/
theorem onlySixInstructionsWriteTheFlag : Obligations.OnlySixInstructionsWriteTheFlag := by
  intro x y n kk s t hx
  have hother {b : Byte} (h : Host.Outcome.next (s.setV x b) = (.next t : Result)) : t.getV 0xF#4 = s.getV 0xF#4 := by
    cases h
    exact getV_setV_ne s b hx.symm
  refine ⟨?_, ?_, fun z nnn => ?_⟩ <;>
    simp only [List.forall_mem_cons, List.not_mem_nil, false_imp_iff, implies_true, and_true]
  · refine ⟨?_, ?_, ?_, ?_, ?_, fun h ht _ => execDrwVxVyN_flag h ht⟩ <;> intro h _ _ <;> cases h
    · exact setResultThenFlag_flag ..
    · exact setFlagThenResult_flag hx ..
    · exact setFlagThenResult_flag hx ..
    · exact setFlagThenResult_flag hx ..
    · exact setFlagThenResult_flag hx ..
  · exact ⟨hother, hother, hother, hother, hother, hother, execRndVxKk_keeps_getV hx.symm, hother,
      execLdVxMemI_keeps_flag hx⟩
  · refine ⟨?_, execRet_keeps_v, ?_, ?_, execCallNnn_keeps_v, skipIf_keeps_v, skipIf_keeps_v, skipIf_keeps_v,
      skipIf_keeps_v, ?_, ?_, execSkpVx_keeps_v, execSknpVx_keeps_v, ?_, ?_, ?_, ?_, ?_, execLdBVx_keeps_v,
      execLdMemIVx_keeps_v⟩ <;> intro h <;> cases h <;> rfl

/-! ### Stores read back (43_index_memory R214, R215; 20_memory R73) -/

/-- Settles O39: the store's bytes by `ldMemIStoresTheRegisters`, the load's registers by `ldVxMemILoadsTheRegisters`. -/
theorem storeThenLoadRestoresTheRegisters : Obligations.StoreThenLoadRestoresTheRegisters := by
  intro x s t junk hwf hfits hstore
  obtain ⟨-, hstores, -⟩ := ldMemIStoresTheRegisters x s
  obtain ⟨t', ht', hstored, -, -, -⟩ := hstores hwf hfits
  cases ht'.symm.trans hstore
  obtain ⟨-, hloads, -⟩ := ldVxMemILoadsTheRegisters x { t with i := s.i, v := junk }
  obtain ⟨u, hu, hloaded, hi, -⟩ := hloads hfits
  refine ⟨u, hu, fun k hk => ?_, hi⟩
  rw [hloaded k, if_pos hk]
  exact hstored k hk

/-- A read after a block store, in the statement's words. -/
theorem read_writeBytes_eq_byteAfterStore {s : State} (hwf : s.mem.wf = true) {a n : Nat} {bytes : List Byte}
    {value : Nat → Byte} (hlen : bytes.length = n) (hb : a + n ≤ 4096) (hvalue : ∀ k < n, bytes.getD k 0 = value k)
    (p : Nat) : (s.mem.writeBytes a bytes).read p = byteAfterStore a n value s p := by
  subst hlen
  rw [Memory.read_writeBytes hwf hb, byteAfterStore]
  split
  · exact hvalue _ (by omega)
  · rfl

theorem fetch_after_store {s u : State} (hwf : s.mem.wf = true) {a n : Nat} {bytes : List Byte} {value : Nat → Byte}
    (hlen : bytes.length = n) (hb : a + n ≤ 4096) (hvalue : ∀ k < n, bytes.getD k 0 = value k)
    (hu : u.mem = s.mem.writeBytes a bytes) (hpc : u.pc.toNat ≤ 4094) :
    fetch u = some (byteAfterStore a n value s u.pc.toNat ++ byteAfterStore a n value s (u.pc.toNat + 1)) := by
  rw [fetch_of_pc_le hpc, State.readByte, State.readByte, hu, read_writeBytes_eq_byteAfterStore hwf hlen hb hvalue,
    read_writeBytes_eq_byteAfterStore hwf hlen hb hvalue]
  rfl

theorem blockRegs_getD_ofNat (x : Nibble) (s : State) (k : Nat) (hk : k < x.toNat + 1) :
    (blockRegs x s).getD k 0 = s.getV (BitVec.ofNat 4 k) := by
  have hx := x.isLt
  have hnat : (BitVec.ofNat 4 k).toNat = k := by
    rw [BitVec.toNat_ofNat]
    omega
  have h := blockRegs_getD x (BitVec.ofNat 4 k) s (by omega)
  rwa [hnat] at h

theorem fetch_after_ldMemIVx {x : Nibble} {s t u : State} (hwf : s.mem.wf = true) (hfits : s.i.toNat + x.toNat ≤ 4095)
    (h : exec (.ldMemIVx x) s = .next t) (hu : u.mem = t.mem) (hpc : u.pc.toNat ≤ 4094) :
    fetch u = some
      (byteAfterStore (addrI s) (x.toNat + 1) (fun k => s.getV (BitVec.ofNat 4 k)) s u.pc.toNat ++
        byteAfterStore (addrI s) (x.toNat + 1) (fun k => s.getV (BitVec.ofNat 4 k)) s (u.pc.toNat + 1)) := by
  cases (exec_ldMemIVx_of_fits hfits).symm.trans h
  exact fetch_after_store hwf (blockRegs_length x s) (by rw [addrI]; omega) (blockRegs_getD_ofNat x s) hu hpc

/-- Settles O40: both stores are block stores, and LD [I],Vx leaves PC. -/
theorem storeIsSeenByTheNextFetch : Obligations.StoreIsSeenByTheNextFetch := by
  intro x s t u hwf hu hpc
  refine ⟨fun hfits h => ?_, fun hfits h => fetch_after_ldMemIVx hwf hfits h hu hpc, fun hx hi hfits h => ?_⟩
  · cases (exec_ldBVx_of_fits hfits).symm.trans h
    exact fetch_after_store hwf rfl (by rw [addrI]; omega) (fun _ hk => bcdDigits_getD _ hk) hu hpc
  · have htpc : t.pc = s.pc := by
      cases (exec_ldMemIVx_of_fits hfits).symm.trans h
      rfl
    have hpc_le : t.pc.toNat ≤ 4094 := by
      rw [htpc, ← hi]
      omega
    rw [fetch_after_ldMemIVx hwf hfits h rfl hpc_le, htpc, ← hi, addrI, byteAfterStore, byteAfterStore,
      if_pos (by omega), if_pos (by omega), Nat.sub_self, Nat.add_sub_cancel_left]

/-! ### Drawing twice (44_display R233) -/

/-- The mask depends on the origin, I and MEM alone. -/
theorem spriteCovers_congr {s t : State} {x y n : Nibble} (hx : t.getV x = s.getV x) (hy : t.getV y = s.getV y)
    (hi : t.i = s.i) (hmem : SameMemory s t) (r : Fin 32) (c : Fin 64) :
    spriteCovers t x y n r c ↔ spriteCovers s x y n r c := by
  simp only [spriteCovers, hx, hy, hi, hmem _]

/-- Settles O45: both draws by `drwXorsTheSpriteMask`, the second with the first one's mask. -/
theorem drawingTwiceRestoresTheDisplay : Obligations.DrawingTwiceRestoresTheDisplay := by
  intro x y n s t u hx hy hfits ht hu
  obtain ⟨-, hdraw, -⟩ := drwXorsTheSpriteMask x y n s
  obtain ⟨t', ht', hon, hoff, -, -, hkeep, hframe, hmem⟩ := hdraw hfits
  cases ht'.symm.trans ht
  have hi : t.i = s.i := by rw [hframe]
  have hmask := spriteCovers_congr (n := n) (hkeep x hx) (hkeep y hy) hi hmem
  obtain ⟨-, hdraw', -⟩ := drwXorsTheSpriteMask x y n t
  obtain ⟨u', hu', hon', hoff', hmet, hmissed, -⟩ := hdraw' (by rwa [hi])
  cases hu'.symm.trans hu
  simp only [hmask] at hon' hoff' hmet hmissed
  refine ⟨fb_ext fun r c => ?_, ?_⟩
  · by_cases hc : spriteCovers s x y n r c
    · rw [hon' r c hc, hon r c hc, Bool.not_not]
    · rw [hoff' r c hc, hoff r c hc]
  · have hpixel : (∃ r c, spriteCovers s x y n r c ∧ pixel t.fb r c = true) ↔
        ∃ r c, spriteCovers s x y n r c ∧ pixel s.fb r c = false :=
      exists_congr fun r => exists_congr fun c => and_congr_right fun hc => by rw [hon r c hc, Bool.not_eq_true']
    rw [← hpixel]
    refine ⟨fun hflag => ?_, hmet⟩
    by_contra hno
    rw [hmissed hno] at hflag
    cases hflag

end Sys2Proof.Machine
end

section
/-! PROOFS. Noninterference (10_state R25 to R27; 20_memory R60): MEM, the call stack, ST and FB are each seen by few
instructions. One theorem says it of all four at once: an instruction commutes with rewriting whichever of them it does not
touch. -/

namespace Sys2Proof.Machine

/-- A rewriting of MEM, the call stack, ST and FB. -/
structure Rewriting where
  mem : Memory → Memory
  stack : List Word → List Word
  st : Byte → Byte
  fb : Framebuffer → Framebuffer

/-- `s` with the four parts rewritten. -/
def Rewriting.apply (f : Rewriting) (s : State) : State :=
  { s with mem := f.mem s.mem, stack := f.stack s.stack, st := f.st s.st, fb := f.fb s.fb }

/-- The parts `ins` touches are left as they are. -/
structure Rewriting.Spares (f : Rewriting) (ins : Instr) : Prop where
  mem : f.mem = id ∨ ((∀ x y n, ins ≠ .drwVxVyN x y n) ∧ (∀ x, ins ≠ .ldBVx x) ∧ (∀ x, ins ≠ .ldMemIVx x) ∧
    ∀ x, ins ≠ .ldVxMemI x)
  stack : f.stack = id ∨ ((∀ nnn, ins ≠ .callNnn nnn) ∧ ins ≠ .ret)
  st : f.st = id ∨ ∀ x, ins ≠ .ldStVx x
  fb : f.fb = id ∨ (ins ≠ .cls ∧ ∀ x y n, ins ≠ .drwVxVyN x y n)

section
variable (f : Rewriting) (s : State)

theorem sampleKeys_rewriting : sampleKeys (f.apply s) = ((sampleKeys s).1, f.apply (sampleKeys s).2) := by
  cases h : s.host.keys <;> simp [sampleKeys, Rewriting.apply, h]

theorem sampleRnd_rewriting : sampleRnd (f.apply s) = ((sampleRnd s).1, f.apply (sampleRnd s).2) := by
  cases h : s.host.rnd <;> simp [sampleRnd, Rewriting.apply, h]

theorem skipIf_rewriting (c : Bool) : skipIf c (f.apply s) = f.apply (skipIf c s) := by cases c <;> rfl

theorem setBlock_rewriting (k : Nat) (bytes : List Byte) : setBlock k bytes (f.apply s) = f.apply (setBlock k bytes s) := by
  induction bytes generalizing k s with
  | nil => rfl
  | cons b bs ih => exact ih (s.setV (BitVec.ofNat 4 k) b) (k + 1)

end

theorem execLdVxMemI_keeps_mem {x : Nibble} {s t : State} (h : execLdVxMemI x s = .next t) : t.mem = s.mem := by
  obtain ⟨-, e⟩ | ⟨-, e⟩ := execLdVxMemI_cases x s <;> cases e.symm.trans h
  · rw [setBlock_eq]
    rfl
  · exact enterHalted_mem ..

/-- Two results that correspond, from the two runs. -/
theorem commutes_of_next {ins : Instr} {f : Rewriting} {s t : State} (h : exec ins s = .next t)
    (h' : exec ins (f.apply s) = .next (f.apply t)) : exec ins (f.apply s) = onNext f.apply (exec ins s) := by
  rw [h, h', onNext]

/-- One case per instruction; one that can fault has two, and the rewriting decides neither. -/
theorem exec_rewriting (f : Rewriting) (s : State) {ins : Instr} (hf : f.Spares ins) :
    exec ins (f.apply s) = onNext f.apply (exec ins s) := by
  obtain ⟨fmem, fstack, fst, ffb⟩ := f
  obtain ⟨hmem, hstack, hst, hfb⟩ := hf
  dsimp only at hmem hstack hst hfb
  cases ins with
  | cls =>
    obtain rfl := hfb.resolve_right fun h => h.1 rfl
    rfl
  | ldStVx x =>
    obtain rfl := hst.resolve_right fun h => h x rfl
    rfl
  | ret =>
    obtain rfl := hstack.resolve_right fun h => h.2 rfl
    cases h : s.stack with
    | nil => exact commutes_of_next (exec_ret_of_empty h) (exec_ret_of_empty (s := Rewriting.apply _ s) h)
    | cons a rest => exact commutes_of_next (exec_ret_of_cons h) (exec_ret_of_cons (s := Rewriting.apply _ s) h)
  | callNnn nnn =>
    obtain rfl := hstack.resolve_right fun h => h.1 nnn rfl
    by_cases h : s.sp < s.cfg.stackDepth
    · exact commutes_of_next (exec_callNnn_of_room h) (exec_callNnn_of_room (s := Rewriting.apply _ s) h)
    · rw [not_lt] at h
      exact commutes_of_next (exec_callNnn_of_full h) (exec_callNnn_of_full (s := Rewriting.apply _ s) h)
  | drwVxVyN x y n =>
    obtain rfl := hmem.resolve_right fun h => h.1 x y n rfl
    obtain rfl := hfb.resolve_right fun h => h.2 x y n rfl
    by_cases h : n.toNat = 0 ∨ s.i.toNat + n.toNat - 1 ≤ 4095
    · exact commutes_of_next (exec_drwVxVyN_of_fits h) (exec_drwVxVyN_of_fits (s := Rewriting.apply _ s) h)
    · replace h : n.toNat ≥ 1 ∧ s.i.toNat + n.toNat - 1 > 4095 := by omega
      exact commutes_of_next (exec_drwVxVyN_of_overruns h) (exec_drwVxVyN_of_overruns (s := Rewriting.apply _ s) h)
  | ldBVx x =>
    obtain rfl := hmem.resolve_right fun h => h.2.1 x rfl
    by_cases h : s.i.toNat + 2 ≤ 4095
    · exact commutes_of_next (exec_ldBVx_of_fits h) (exec_ldBVx_of_fits (s := Rewriting.apply _ s) h)
    · rw [not_le] at h
      exact commutes_of_next (exec_ldBVx_of_overruns h) (exec_ldBVx_of_overruns (s := Rewriting.apply _ s) h)
  | ldMemIVx x =>
    obtain rfl := hmem.resolve_right fun h => h.2.2.1 x rfl
    by_cases h : s.i.toNat + x.toNat ≤ 4095
    · exact commutes_of_next (exec_ldMemIVx_of_fits h) (exec_ldMemIVx_of_fits (s := Rewriting.apply _ s) h)
    · rw [not_le] at h
      exact commutes_of_next (exec_ldMemIVx_of_overruns h) (exec_ldMemIVx_of_overruns (s := Rewriting.apply _ s) h)
  | ldVxMemI x =>
    obtain rfl := hmem.resolve_right fun h => h.2.2.2 x rfl
    by_cases h : s.i.toNat + x.toNat ≤ 4095
    · refine commutes_of_next (exec_ldVxMemI_of_fits h) ((exec_ldVxMemI_of_fits (s := Rewriting.apply _ s) h).trans ?_)
      rw [setBlock_rewriting]
      rfl
    · rw [not_le] at h
      exact commutes_of_next (exec_ldVxMemI_of_overruns h) (exec_ldVxMemI_of_overruns (s := Rewriting.apply _ s) h)
  | skpVx x =>
    by_cases h : (s.getV x).toNat ≤ 0xF
    · refine commutes_of_next (exec_skpVx_of_key h) ((exec_skpVx_of_key (s := Rewriting.apply _ s) h).trans ?_)
      rw [sampleKeys_rewriting, skipIf_rewriting]
      rfl
    · rw [not_le] at h
      exact commutes_of_next (exec_skpVx_of_badKey h) (exec_skpVx_of_badKey (s := Rewriting.apply _ s) h)
  | sknpVx x =>
    by_cases h : (s.getV x).toNat ≤ 0xF
    · refine commutes_of_next (exec_sknpVx_of_key h) ((exec_sknpVx_of_key (s := Rewriting.apply _ s) h).trans ?_)
      rw [sampleKeys_rewriting, skipIf_rewriting]
      rfl
    · rw [not_le] at h
      exact commutes_of_next (exec_sknpVx_of_badKey h) (exec_sknpVx_of_badKey (s := Rewriting.apply _ s) h)
  | rndVxKk x kk =>
    refine commutes_of_next (execRndVxKk_eq x kk s) ((execRndVxKk_eq x kk (Rewriting.apply _ s)).trans ?_)
    rw [sampleRnd_rewriting]
    rfl
  | seVxKk | sneVxKk | seVxVy | sneVxVy => exact congrArg Host.Outcome.next (skipIf_rewriting _ s _)
  | _ => rfl

/-- Settles O42: `exec_rewriting` with MEM replaced. -/
theorem onlyFourInstructionsTouchMemory : Obligations.OnlyFourInstructionsTouchMemory := by
  refine ⟨fun ins s m hdrw hldB hstore hload => ?_, fun x y n s t => ⟨execDrwVxVyN_keeps_mem, execLdVxMemI_keeps_mem⟩⟩
  exact exec_rewriting ⟨fun _ => m, id, id, id⟩ s ⟨.inr ⟨hdrw, hldB, hstore, hload⟩, .inl rfl, .inl rfl, .inl rfl⟩

/-- Settles O47: `exec_rewriting` with FB replaced. -/
theorem onlyClsAndDrwTouchTheDisplay : Obligations.OnlyClsAndDrwTouchTheDisplay := fun _ s fb hcls hdrw =>
  exec_rewriting ⟨id, id, id, fun _ => fb⟩ s ⟨.inl rfl, .inl rfl, .inl rfl, .inr ⟨hcls, hdrw⟩⟩

/-- Settles O52: `exec_rewriting` with ST replaced; LD ST,Vx overwrites ST whatever it held. -/
theorem soundTimerIsReadByNoInstruction : Obligations.SoundTimerIsReadByNoInstruction := by
  refine fun ins s b => ⟨fun hst => ?_, ?_⟩
  · exact exec_rewriting ⟨id, id, fun _ => b, id⟩ s ⟨.inl rfl, .inl rfl, .inr hst, .inl rfl⟩
  · rintro x rfl
    rfl

/-- Settles O53: `exec_rewriting` with the stack replaced; CALL by whether there is room, RET by the shape of the stack. -/
theorem onlyCallAndRetTouchTheStack : Obligations.OnlyCallAndRetTouchTheStack := by
  refine ⟨fun ins s l hcall hret => ?_, fun nnn s t h => ?_, fun s t h => ?_⟩
  · exact exec_rewriting ⟨id, fun _ => l, id, id⟩ s ⟨.inl rfl, .inr ⟨hcall, hret⟩, .inl rfl, .inl rfl⟩
  · obtain ⟨-, e⟩ | ⟨-, e⟩ := execCallNnn_cases nnn s <;> cases e.symm.trans h
    · exact .inr rfl
    · exact .inl (enterHalted_stack ..)
  · obtain ⟨_, _, hcons, e⟩ | ⟨-, e⟩ := execRet_cases s <;> cases e.symm.trans h
    · exact .inr hcons
    · exact .inl (enterHalted_stack ..)

end Sys2Proof.Machine
end
